-- ==== Sys2Proof/Word.lean ====
section
/-! DEFINITION. The widths of the cipher core's values (spec/00_scope.md R7, R15). -/

namespace Sys2Proof

/-- One byte of an operand buffer or of the response. -/
abbrev Byte := BitVec 8

/-- A byte string; byte 0 is first (R15). -/
abbrev Bytes := List Byte

/-- The value of one 8-byte block, key, IV or counter block (R7: BLOCK_BYTES, KEY_BYTES, IV_BYTES are 8). -/
abbrev Block := BitVec 64

/-- Half a block, L or R (R7: HALF_BITS). -/
abbrev Half := BitVec 32

/-- Half of the 56 key bits, C or D (R7: CD_BITS). -/
abbrev KeyHalf := BitVec 28

/-- One round subkey (R7: SUBKEY_BITS). -/
abbrev Subkey := BitVec 48

/-- One command word CMD (R100, R101). -/
abbrev CmdWord := BitVec 32

end Sys2Proof
end

