-- ==== Sys2Proof/Config.lean ====
section
/-! DEFINITION. The implementation parameters of spec/00_scope.md R8 to R11 (TABLES, IPFP, MAX_DATA_LEN, CTR_OVERFLOW).
They are constants of one machine: State carries them in its field `cfg`, which no command and no reset writes, so that
every statement about all states is a statement about every value of every parameter. Their presets stand in
Machine/Tables.lean. -/

namespace Sys2Proof

/-- Parameter `TABLES` (R8): the selection tables list DES positions counted from 1 (R12), an S-box is a list of rows.
The shapes R188 asks for are checked by `Tables.shapeOk`. -/
structure Tables where
  pc1 : List Nat
  pc2 : List Nat
  e : List Nat
  sboxes : List (List (List Nat))
  p : List Nat
  deriving DecidableEq, Repr

/-- Parameter `IPFP` (R9): whether IP and FP surround the rounds. -/
inductive IpFp where
  | absent
  | present
  deriving DecidableEq, Repr

/-- Parameter `CTR_OVERFLOW` (R11): what CTR mode does when the counter reaches 2^64. -/
inductive CtrOverflow where
  | fault
  | wrap
  deriving DecidableEq, Repr

/-- The parameters of one machine. -/
structure Config where
  tables : Tables
  ipfp : IpFp
  maxDataLen : Nat
  ctrOverflow : CtrOverflow
  deriving DecidableEq, Repr

end Sys2Proof
end

