-- ==== Sys2Proof/Machine/Tables.lean ====
section
/-! DEFINITION. The table entries of the default TABLES = DES_STANDARD (40_key_schedule.md R141, R145; 41_round_engine.md
R180, R184, R186), the tables IP and FP of R191, SHIFTS of R143, the shape check of R188, and the preset configuration.
The spec marks the entries of DES_STANDARD, IP and FP as general knowledge of its own (FIPS 46); SHIFTS is the source's. -/

namespace Sys2Proof.Machine

/-- PC-1, 56 positions of the 64-bit key (R141). -/
def pc1Table : List Nat :=
  [ 57, 49, 41, 33, 25, 17,  9,
     1, 58, 50, 42, 34, 26, 18,
    10,  2, 59, 51, 43, 35, 27,
    19, 11,  3, 60, 52, 44, 36,
    63, 55, 47, 39, 31, 23, 15,
     7, 62, 54, 46, 38, 30, 22,
    14,  6, 61, 53, 45, 37, 29,
    21, 13,  5, 28, 20, 12,  4 ]

/-- PC-2, 48 positions of the 56-bit `C ‖ D` (R145). -/
def pc2Table : List Nat :=
  [ 14, 17, 11, 24,  1,  5,
     3, 28, 15,  6, 21, 10,
    23, 19, 12,  4, 26,  8,
    16,  7, 27, 20, 13,  2,
    41, 52, 31, 37, 47, 55,
    30, 40, 51, 45, 33, 48,
    44, 49, 39, 56, 34, 53,
    46, 42, 50, 36, 29, 32 ]

/-- E, the expansion, 48 positions of the 32-bit R (R180). -/
def eTable : List Nat :=
  [ 32,  1,  2,  3,  4,  5,
     4,  5,  6,  7,  8,  9,
     8,  9, 10, 11, 12, 13,
    12, 13, 14, 15, 16, 17,
    16, 17, 18, 19, 20, 21,
    20, 21, 22, 23, 24, 25,
    24, 25, 26, 27, 28, 29,
    28, 29, 30, 31, 32,  1 ]

/-- P, a permutation of 32 positions (R186). -/
def pTable : List Nat :=
  [ 16,  7, 20, 21,
    29, 12, 28, 17,
     1, 15, 23, 26,
     5, 18, 31, 10,
     2,  8, 24, 14,
    32, 27,  3,  9,
    19, 13, 30,  6,
    22, 11,  4, 25 ]

/-- IP, used only under `IPFP = present` (R191). -/
def ipTable : List Nat :=
  [ 58, 50, 42, 34, 26, 18, 10,  2,
    60, 52, 44, 36, 28, 20, 12,  4,
    62, 54, 46, 38, 30, 22, 14,  6,
    64, 56, 48, 40, 32, 24, 16,  8,
    57, 49, 41, 33, 25, 17,  9,  1,
    59, 51, 43, 35, 27, 19, 11,  3,
    61, 53, 45, 37, 29, 21, 13,  5,
    63, 55, 47, 39, 31, 23, 15,  7 ]

/-- FP, the inverse of IP, used only under `IPFP = present` (R191). -/
def fpTable : List Nat :=
  [ 40,  8, 48, 16, 56, 24, 64, 32,
    39,  7, 47, 15, 55, 23, 63, 31,
    38,  6, 46, 14, 54, 22, 62, 30,
    37,  5, 45, 13, 53, 21, 61, 29,
    36,  4, 44, 12, 52, 20, 60, 28,
    35,  3, 43, 11, 51, 19, 59, 27,
    34,  2, 42, 10, 50, 18, 58, 26,
    33,  1, 41,  9, 49, 17, 57, 25 ]

/-- S1, indexed by row and then column (R184). -/
def s1Table : List (List Nat) :=
  [ [14,  4, 13,  1,  2, 15, 11,  8,  3, 10,  6, 12,  5,  9,  0,  7],
    [ 0, 15,  7,  4, 14,  2, 13,  1, 10,  6, 12, 11,  9,  5,  3,  8],
    [ 4,  1, 14,  8, 13,  6,  2, 11, 15, 12,  9,  7,  3, 10,  5,  0],
    [15, 12,  8,  2,  4,  9,  1,  7,  5, 11,  3, 14, 10,  0,  6, 13] ]

/-- S2, indexed by row and then column (R184). -/
def s2Table : List (List Nat) :=
  [ [15,  1,  8, 14,  6, 11,  3,  4,  9,  7,  2, 13, 12,  0,  5, 10],
    [ 3, 13,  4,  7, 15,  2,  8, 14, 12,  0,  1, 10,  6,  9, 11,  5],
    [ 0, 14,  7, 11, 10,  4, 13,  1,  5,  8, 12,  6,  9,  3,  2, 15],
    [13,  8, 10,  1,  3, 15,  4,  2, 11,  6,  7, 12,  0,  5, 14,  9] ]

/-- S3, indexed by row and then column (R184). -/
def s3Table : List (List Nat) :=
  [ [10,  0,  9, 14,  6,  3, 15,  5,  1, 13, 12,  7, 11,  4,  2,  8],
    [13,  7,  0,  9,  3,  4,  6, 10,  2,  8,  5, 14, 12, 11, 15,  1],
    [13,  6,  4,  9,  8, 15,  3,  0, 11,  1,  2, 12,  5, 10, 14,  7],
    [ 1, 10, 13,  0,  6,  9,  8,  7,  4, 15, 14,  3, 11,  5,  2, 12] ]

/-- S4, indexed by row and then column (R184). -/
def s4Table : List (List Nat) :=
  [ [ 7, 13, 14,  3,  0,  6,  9, 10,  1,  2,  8,  5, 11, 12,  4, 15],
    [13,  8, 11,  5,  6, 15,  0,  3,  4,  7,  2, 12,  1, 10, 14,  9],
    [10,  6,  9,  0, 12, 11,  7, 13, 15,  1,  3, 14,  5,  2,  8,  4],
    [ 3, 15,  0,  6, 10,  1, 13,  8,  9,  4,  5, 11, 12,  7,  2, 14] ]

/-- S5, indexed by row and then column (R184). -/
def s5Table : List (List Nat) :=
  [ [ 2, 12,  4,  1,  7, 10, 11,  6,  8,  5,  3, 15, 13,  0, 14,  9],
    [14, 11,  2, 12,  4,  7, 13,  1,  5,  0, 15, 10,  3,  9,  8,  6],
    [ 4,  2,  1, 11, 10, 13,  7,  8, 15,  9, 12,  5,  6,  3,  0, 14],
    [11,  8, 12,  7,  1, 14,  2, 13,  6, 15,  0,  9, 10,  4,  5,  3] ]

/-- S6, indexed by row and then column (R184). -/
def s6Table : List (List Nat) :=
  [ [12,  1, 10, 15,  9,  2,  6,  8,  0, 13,  3,  4, 14,  7,  5, 11],
    [10, 15,  4,  2,  7, 12,  9,  5,  6,  1, 13, 14,  0, 11,  3,  8],
    [ 9, 14, 15,  5,  2,  8, 12,  3,  7,  0,  4, 10,  1, 13, 11,  6],
    [ 4,  3,  2, 12,  9,  5, 15, 10, 11, 14,  1,  7,  6,  0,  8, 13] ]

/-- S7, indexed by row and then column (R184). -/
def s7Table : List (List Nat) :=
  [ [ 4, 11,  2, 14, 15,  0,  8, 13,  3, 12,  9,  7,  5, 10,  6,  1],
    [13,  0, 11,  7,  4,  9,  1, 10, 14,  3,  5, 12,  2, 15,  8,  6],
    [ 1,  4, 11, 13, 12,  3,  7, 14, 10, 15,  6,  8,  0,  5,  9,  2],
    [ 6, 11, 13,  8,  1,  4, 10,  7,  9,  5,  0, 15, 14,  2,  3, 12] ]

/-- S8, indexed by row and then column (R184). -/
def s8Table : List (List Nat) :=
  [ [13,  2,  8,  4,  6, 15, 11,  1, 10,  9,  3, 14,  5,  0, 12,  7],
    [ 1, 15, 13,  8, 10,  3,  7,  4, 12,  5,  6, 11,  0, 14,  9,  2],
    [ 7, 11,  4,  1,  9, 12, 14,  2,  0,  6, 10, 13, 15,  3,  5,  8],
    [ 2,  1, 14,  7,  4, 10,  8, 13, 15, 12,  9,  0,  3,  5,  6, 11] ]

/-- `DES_STANDARD`, the default of the parameter TABLES (R8). -/
def desStandard : Tables where
  pc1 := pc1Table
  pc2 := pc2Table
  e := eTable
  sboxes := [s1Table, s2Table, s3Table, s4Table, s5Table, s6Table, s7Table, s8Table]
  p := pTable

/-- SHIFTS, the left-rotation amount of each round, repeating with period 16 (R143, R144). It is a constant of the core
and no member of TABLES, as R8 lists TABLES (notes/assumptions/5.md). -/
def shiftsTable : List Nat := [1, 1, 2, 2, 2, 2, 2, 2, 1, 2, 2, 2, 2, 2, 2, 1]

/-- A selection table of `len` entries, each a DES position 1..`width` (R188). -/
def selectionOk (len width : Nat) (table : List Nat) : Bool :=
  table.length == len && table.all (fun n => decide (1 ≤ n ∧ n ≤ width))

/-- One S-box is 4 rows of 16 entries below 16 (R188). -/
def sboxOk (box : List (List Nat)) : Bool :=
  box.length == 4 && box.all (fun row => row.length == 16 && row.all (fun n => decide (n < 16)))

/-- The shape check of R188, made before a configuration runs: E has 48 entries in 1..32, P is a permutation of 1..32,
each of the eight S-boxes is 4 by 16 with entries below 16, PC-1 has 56 entries in 1..64, PC-2 has 48 entries in 1..56. -/
def shapeOk (t : Tables) : Bool :=
  selectionOk 48 32 t.e
    && (selectionOk 32 32 t.p && (List.range 32).all (fun n => t.p.contains (n + 1)))
    && (t.sboxes.length == 8 && t.sboxes.all sboxOk)
    && selectionOk 56 64 t.pc1
    && selectionOk 48 56 t.pc2

/-- The bound that the preset configuration puts on DATA_IN. DESIGN CHOICE: R10 leaves MAX_DATA_LEN open
(notes/assumptions/6.md); no statement rests on this number. -/
def presetMaxDataLen : Nat := 2 ^ 64 - 1

/-- The configuration of `State.reset`: the spec's defaults of TABLES, IPFP and CTR_OVERFLOW (R8, R9, R11), and the
bound above. -/
def presetConfig : Config where
  tables := desStandard
  ipfp := .absent
  maxDataLen := presetMaxDataLen
  ctrOverflow := .fault

end Sys2Proof.Machine
end

