-- ==== Sys2Proof/Syntax.lean ====
section
/-! DEFINITION. The command set: one constructor per row of spec/opcode_table.json (30_encoding.md R107). The operands
KEY_IN, IV_IN and DATA_IN are no part of the command word (R100); they stand in the machine's operand buffers. -/

namespace Sys2Proof

/-- The five modes of operation, the values that the KIND field and MODE_KIND can name (R103, 10_state.md R38). -/
inductive Kind where
  | ecb
  | cbc
  | cfb
  | ofb
  | ctr
  deriving DecidableEq, Repr

/-- A command as its word gives it. `rounds` is the unsigned ROUNDS field (R106), `ivp` is IVP (R104), `strict` is
STRICT (R105). -/
inductive Instr where
  | engineInit (rounds : Nat)
  | blockEnc
  | blockDec
  | modeInitEcb (ivp strict : Bool)
  | modeInitCbc (ivp strict : Bool)
  | modeInitCfb (ivp strict : Bool)
  | modeInitOfb (ivp strict : Bool)
  | modeInitCtr (ivp strict : Bool)
  | modeEnc
  | modeDec
  deriving DecidableEq, Repr

end Sys2Proof
end

