-- ==== Sys2Proof/Machine/State.lean ====
section
/-! DEFINITION. The machine's state (10_state.md R32 to R46), the interface it is driven through (30_encoding.md R100,
70_reset_and_hazards.md R340), the reasons a step can stop, and the state after reset. -/

namespace Sys2Proof.Machine

/-- What a register holds. `unwritten` is the spec's own state of a register: R46 gives it as the reset value ("the
register holds no value: a model must fault on a read") and R148 assigns it to SUBKEY entries (notes/assumptions/1.md). -/
inductive Reg (α : Type) where
  | unwritten
  | holds (value : α)
  deriving DecidableEq, Repr

/-- The persistent architectural state, S0 to S7 of R32. -/
structure Regs where
  /-- S0 ENGINE_VALID (R33). -/
  engineValid : Bool
  /-- S1 KEY, the normalised master key (R34). -/
  key : Reg Block
  /-- S2 ROUNDS (R35). -/
  rounds : Reg (BitVec 6)
  /-- S3 SUBKEY[0..31] (R36). -/
  subkey : Vector (Reg Subkey) 32
  /-- S4 MODE_VALID (R37). -/
  modeValid : Bool
  /-- S5 MODE_KIND; values 5 to 7 are never stored (R38), so the register's type is the five kinds. -/
  modeKind : Reg Kind
  /-- S6 MODE_STRICT (R39). -/
  modeStrict : Reg Bool
  /-- S7 IV (R40). -/
  iv : Reg Block
  deriving DecidableEq, Repr

/-- One request on the interface (R100). -/
structure Request where
  cmd : CmdWord
  keyIn : Bytes
  ivIn : Bytes
  dataIn : Bytes
  deriving DecidableEq, Repr

/-- One response on the interface (R100, R42). STATUS is an 8-bit code. -/
structure Response where
  status : BitVec 8
  out : Bytes
  deriving DecidableEq, Repr

/-- What the outside world does next: issue a request (R100), reset the idle core, or reset the core while a request
is in progress, which aborts it (R340; notes/assumptions/7.md). -/
inductive Event where
  | request (r : Request)
  | reset
  | resetDuring (r : Request)
  deriving DecidableEq, Repr

/-- The machine between two commands. -/
structure State where
  /-- The implementation parameters, constant (R8 to R11, R44). -/
  cfg : Config
  /-- The persistent architectural state. -/
  regs : Regs
  /-- The operand buffer KEY_IN of the command being run (R70). -/
  keyIn : Bytes
  /-- The operand buffer IV_IN of the command being run (R70). -/
  ivIn : Bytes
  /-- The operand buffer DATA_IN of the command being run (R70). -/
  dataIn : Bytes
  /-- The response that the last step delivered; output, which no command reads (R42). -/
  response : Option Response
  /-- What the host does next, in issue order (R81). -/
  pending : List Event
  deriving DecidableEq, Repr

/-- The registers a command can read a value from. -/
inductive RegName where
  | rounds
  | subkey (i : Nat)
  | modeKind
  | modeStrict
  | iv
  deriving DecidableEq, Repr

/-- Why the machine stops with a fault. -/
inductive Fault where
  /-- Raised by a command that reads a register holding no value (R46, R36; 93_implementation_defined.md I5, I6). Safe:
  the spec tells a model to fault, and no state the core can reach does it. -/
  | readUnwritten (reg : RegName)
  /-- Raised by a data command when ROUNDS, six bits wide, exceeds the 32 entries of the SUBKEY file, so that an entry
  that does not exist would be read (R35, R36). Safe: no state the core can reach does it. -/
  | noSuchSubkey (i : Nat)
  deriving DecidableEq, Repr

/-- Why the model gives no step. -/
inductive Refusal where
  /-- Raised by an arm of exec whose instruction has no meaning yet. Safe. -/
  | notModelled (mnemonic : String)
  /-- Raised by step when the configured TABLES fail the shape check: "A model must refuse a configuration that fails
  the check, not run it" (41_round_engine.md R188). Safe. -/
  | malformedTables
  deriving DecidableEq, Repr

/-- The architectural state after reset (R46). -/
def Regs.reset : Regs where
  engineValid := false
  key := .unwritten
  rounds := .unwritten
  subkey := Vector.replicate 32 .unwritten
  modeValid := false
  modeKind := .unwritten
  modeStrict := .unwritten
  iv := .unwritten

/-- The machine of configuration `c` right after reset: the registers of R46, no response, and nothing to do (R341). -/
def State.resetWith (c : Config) : State where
  cfg := c
  regs := Regs.reset
  keyIn := []
  ivIn := []
  dataIn := []
  response := none
  pending := []

/-- The machine right after reset, in the preset configuration. -/
def State.reset : State := State.resetWith presetConfig

end Sys2Proof.Machine
end

