-- ==== Sys2Proof/Machine/Flags.lean ====
section
/-! DEFINITION. The status codes of 60_exceptions.md R301, and the writes of the two flags ENGINE_VALID and MODE_VALID
(10_state.md R33, R37, R43). The core has no other flag (R43). -/

namespace Sys2Proof.Machine

/-- The statuses a command can end in (R301). -/
inductive Status where
  | ok
  | invalidBlockLength
  | invalidRounds
  | missingIV
  | invalidPadding
  | illegalCommand
  | noEngine
  | noMode
  | invalidIVLength
  | counterOverflow
  | dataTooLong
  deriving DecidableEq, Repr

/-- The 8-bit code of each status (R301). -/
def Status.code : Status → BitVec 8
  | .ok => 0x00
  | .invalidBlockLength => 0x01
  | .invalidRounds => 0x02
  | .missingIV => 0x03
  | .invalidPadding => 0x04
  | .illegalCommand => 0x05
  | .noEngine => 0x06
  | .noMode => 0x07
  | .invalidIVLength => 0x08
  | .counterOverflow => 0x09
  | .dataTooLong => 0x0A

/-- The flags a successful ENGINE_INIT writes: ENGINE_VALID set, MODE_VALID cleared, since the old mode was bound to
the old engine (R148). -/
def Regs.flagEngineBuilt (r : Regs) : Regs := { r with engineValid := true, modeValid := false }

/-- The flag a successful MODE_INIT writes: MODE_VALID set (R235). -/
def Regs.flagModeBound (r : Regs) : Regs := { r with modeValid := true }

end Sys2Proof.Machine
end

