-- ==== Sys2Proof/Machine/Bits.lean ====
section
/-! DEFINITION. The bit operators of 00_scope.md R12 to R14: DES positions, the selection PERM, and the 28-bit rotation. -/

namespace Sys2Proof.Machine

/-- `pos_w(v, n) = v[w − n]`: DES position n of a w-bit value, position 1 being the most significant bit (R12). -/
def desPos {w : Nat} (v : BitVec w) (n : Nat) : Bool := v.getLsbD (w - n)

/-- The number whose binary digits are `bits`, most significant first. -/
def natOfBits (bits : List Bool) : Nat := bits.foldl (fun acc b => 2 * acc + b.toNat) 0

/-- `PERM(T, v, w)` (R14): the m-bit value whose DES position k is input position `t_k`. The result's width `m` is the
number of entries of T, which the shape check of R188 fixes for every table. -/
def perm {w : Nat} (m : Nat) (table : List Nat) (v : BitVec w) : BitVec m :=
  BitVec.ofNat m (natOfBits (table.map (desPos v)))

/-- `rol28(x, s)` (R13). -/
def rol28 (x : KeyHalf) (s : Nat) : KeyHalf := (x <<< s) ||| (x >>> (28 - s))

end Sys2Proof.Machine
end

