-- ==== Sys2Proof/Machine/Operands.lean ====
section
/-! DEFINITION. Operand buffers and byte strings: MemRead, BE64 and its inverse, blocks of a message (00_scope.md R15,
R16; 20_memory.md R70 to R75), key normalisation (40_key_schedule.md R140), padding and unpadding (42_modes.md R230 to
R232). -/

namespace Sys2Proof.Machine

/-- `MemRead(BUF, off, n) = BUF[off .. off+n)`, which every rule applies within bounds only (R16, R70). -/
def memRead (buf : Bytes) (off n : Nat) : Bytes := (buf.drop off).take n

/-- The number a byte string spells, byte 0 most significant. -/
def natOfBytes (b : Bytes) : Nat := b.foldl (fun acc x => 256 * acc + x.toNat) 0

/-- `BE64(b) = b[0] ‖ b[1] ‖ ... ‖ b[7]` for the 8-byte strings it is applied to (R15, R72). -/
def be64 (b : Bytes) : Block := BitVec.ofNat 64 (natOfBytes b)

/-- `BYTES8(v)`, the inverse of BE64 (R15, R72). -/
def bytes8 (v : Block) : Bytes :=
  [ v.extractLsb' 56 8, v.extractLsb' 48 8, v.extractLsb' 40 8, v.extractLsb' 32 8,
    v.extractLsb' 24 8, v.extractLsb' 16 8, v.extractLsb' 8 8, v.extractLsb' 0 8 ]

/-- Block k of a message, the value of `w[8k .. 8k+8)` (R75). -/
def blockAt (w : Bytes) (k : Nat) : Block := be64 (memRead w (8 * k) 8)

/-- The blocks of a byte string of whole blocks, in order (42_modes.md, head). -/
def blocks (w : Bytes) : List Block := (List.range (w.length / 8)).map (blockAt w)

/-- The concatenation of blocks as bytes. -/
def unblocks (bs : List Block) : Bytes := bs.flatMap bytes8

/-- `NORMKEY(k)` (R140): keep the first 8 bytes; append 0x00 bytes to a shorter key. -/
def normKey (k : Bytes) : Bytes :=
  if 8 ≤ k.length then k.take 8 else k ++ List.replicate (8 - k.length) 0x00

/-- The padding count of R230, 1 to 8. -/
def padCount (d : Bytes) : Nat := 8 - d.length % 8

/-- `PAD(d)` (R230): append n bytes, each equal to n. -/
def pad (d : Bytes) : Bytes := d ++ List.replicate (padCount d) (BitVec.ofNat 8 (padCount d))

/-- `UNPAD_LENIENT(w)` (R231): only the last byte is examined; anything that is no padding count is left in place. -/
def unpadLenient (w : Bytes) : Bytes :=
  match w.getLast? with
  | none => w
  | some last =>
    if 1 ≤ last.toNat ∧ last.toNat ≤ 8 ∧ last.toNat ≤ w.length then w.take (w.length - last.toNat) else w

/-- `UNPAD_STRICT(w)` (R232): none is InvalidPadding. -/
def unpadStrict (w : Bytes) : Option Bytes :=
  match w.getLast? with
  | none => none
  | some last =>
    if 1 ≤ last.toNat ∧ last.toNat ≤ 8 ∧ last.toNat ≤ w.length ∧ (w.drop (w.length - last.toNat)).all (· == last) then
      some (w.take (w.length - last.toNat))
    else none

/-- The unpadding that MODE_STRICT selects (R237, R39). -/
def unpad (strict : Bool) (w : Bytes) : Option Bytes := if strict then unpadStrict w else some (unpadLenient w)

end Sys2Proof.Machine
end

