-- ==== Sys2Proof/Machine/KeySchedule.lean ====
section
/-! DEFINITION. The key schedule (40_key_schedule.md R141 to R147) and the SUBKEY file it fills (10_state.md R36). -/

namespace Sys2Proof.Machine

/-- The rotation amount of round i, `SHIFTS[i mod 16]` (R143, R144). -/
def shiftAmount (i : Nat) : Nat := shiftsTable.getD (i % 16) 0

/-- PC-1 of the key, the 56 bits `C0 ‖ D0` (R141). -/
def pc1Of (t : Tables) (key : Block) : BitVec 56 := perm 56 t.pc1 key

/-- `C0 = pc1[55:28]` and `D0 = pc1[27:0]` (R142). -/
def initialHalves (t : Tables) (key : Block) : KeyHalf × KeyHalf :=
  ((pc1Of t key).extractLsb' 28 28, (pc1Of t key).extractLsb' 0 28)

/-- `PERM(PC2, C ‖ D, 56)` (R145). -/
def subkeyOf (t : Tables) (c d : KeyHalf) : Subkey := perm 48 t.pc2 (c ++ d : BitVec 56)

/-- The subkeys of `n` rounds from round `i` on: rotate the halves as the round before left them, then select (R146). -/
def scheduleFrom (t : Tables) : (n i : Nat) → (c d : KeyHalf) → List Subkey
  | 0, _, _, _ => []
  | n + 1, i, c, d =>
    let c' := rol28 c (shiftAmount i)
    let d' := rol28 d (shiftAmount i)
    subkeyOf t c' d' :: scheduleFrom t n (i + 1) c' d'

/-- `KS(kb, R)` (R146). -/
def ks (t : Tables) (kb : Bytes) (r : Nat) : List Subkey :=
  let h := initialHalves t (be64 kb)
  scheduleFrom t r 0 h.1 h.2

/-- SUBKEY as ENGINE_INIT leaves it: the schedule's entries first, every later entry unwritten (R148). -/
def subkeyFile (schedule : List Subkey) : Vector (Reg Subkey) 32 :=
  Vector.ofFn fun i =>
    match schedule[i.val]? with
    | some k => .holds k
    | none => .unwritten

end Sys2Proof.Machine
end

