-- ==== Sys2Proof/Machine/RoundEngine.lean ====
section
/-! DEFINITION. The round function and the single-block primitive (41_round_engine.md R180 to R191). -/

namespace Sys2Proof.Machine

/-- `EXPAND(R) = PERM(E, R, 32)` (R180). -/
def expand (t : Tables) (r : Half) : BitVec 48 := perm 48 t.e r

/-- `B_j = X[47 − 6j : 42 − 6j]` (R182). -/
def group (x : BitVec 48) (j : Nat) : BitVec 6 := x.extractLsb' (42 - 6 * j) 6

/-- `row(g) = (g[5] << 1) | g[0]` (R183). -/
def sboxRow (g : BitVec 6) : Nat := 2 * (g.getLsbD 5).toNat + (g.getLsbD 0).toNat

/-- `col(g) = g[4:1]` (R183). -/
def sboxCol (g : BitVec 6) : Nat := (g.extractLsb' 1 4).toNat

/-- The nibble S-box j+1 gives for a group (R184, R185). -/
def sboxLookup (t : Tables) (j : Nat) (g : BitVec 6) : BitVec 4 :=
  BitVec.ofNat 4 ((((t.sboxes.getD j []).getD (sboxRow g) []).getD (sboxCol g) 0))

/-- `SUB(X)`, the eight nibbles concatenated, S1's most significant (R185). -/
def sub (t : Tables) (x : BitVec 48) : Half :=
  BitVec.ofNat 32 ((List.range 8).foldl (fun acc j => 16 * acc + (sboxLookup t j (group x j)).toNat) 0)

/-- `F(R, K) = PERM(P, SUB(EXPAND(R) ⊕ K), 32)` (R187). -/
def roundF (t : Tables) (r : Half) (k : Subkey) : Half := perm 32 t.p (sub t (expand t r ^^^ k))

/-- One round: `(L, R) <- (R, L ⊕ F(R, k))` (R189). -/
def round (t : Tables) (lr : Half × Half) (k : Subkey) : Half × Half := (lr.2, lr.1 ^^^ roundF t lr.2 k)

/-- The direction of the primitive (R189). -/
inductive Dir where
  | enc
  | dec
  deriving DecidableEq, Repr

/-- The subkeys in the order the rounds take them: DEC takes `K[n−1]` first (R190). -/
def Dir.order : Dir → List Subkey → List Subkey
  | .enc, keys => keys
  | .dec, keys => keys.reverse

/-- The rounds alone: split into `L = b[63:32]`, `R = b[31:0]`, one round per subkey, output `R ‖ L` (R189). -/
def feistel (t : Tables) (keys : List Subkey) (b : Block) : Block :=
  let lr := keys.foldl (round t) (b.extractLsb' 32 32, b.extractLsb' 0 32)
  (lr.2 ++ lr.1 : BitVec 64)

/-- IP on the input block, under `IPFP = present` only (R189, R191). -/
def initialPerm (ipfp : IpFp) (b : Block) : Block :=
  match ipfp with
  | .absent => b
  | .present => perm 64 ipTable b

/-- FP on the output block, under `IPFP = present` only (R189, R191). -/
def finalPerm (ipfp : IpFp) (b : Block) : Block :=
  match ipfp with
  | .absent => b
  | .present => perm 64 fpTable b

/-- `CIPHER(b, dir, K)` (R189). The two directions undo each other for every TABLES, every list of subkeys and both settings
of IPFP (R194), as `cipher_dec_enc` and `cipher_enc_dec` of Laws/RoundEngine.lean say. -/
def cipher (c : Config) (dir : Dir) (keys : List Subkey) (b : Block) : Block :=
  finalPerm c.ipfp (feistel c.tables (dir.order keys) (initialPerm c.ipfp b))

end Sys2Proof.Machine
end

