-- ==== Sys2Proof/Machine/Modes.lean ====
section
/-! DEFINITION. The five modes over whole blocks (42_modes.md R238 to R245). `eb` and `db` are EB and DB of that file's
head, on block values: XOR8 and BYTES8 of R15 become XOR of the values and the final `unblocks`. The transient CHAIN, CTRV
and BLK of 10_state.md R41 are the arguments of these recursions. -/

namespace Sys2Proof.Machine

/-- `ECB_ENC` with EB, `ECB_DEC` with DB (R238, R239). -/
def ecbMap (prim : Block → Block) (ws : List Block) : List Block := ws.map prim

/-- `CBC_ENC` from a chaining value: `c_i = EB(w_i ⊕ CHAIN)`, and CHAIN becomes `c_i` (R240). -/
def cbcEnc (eb : Block → Block) : (chain : Block) → List Block → List Block
  | _, [] => []
  | chain, w :: ws => eb (w ^^^ chain) :: cbcEnc eb (eb (w ^^^ chain)) ws

/-- `CBC_DEC` from a chaining value: `p_i = DB(w_i) ⊕ CHAIN`, and CHAIN becomes the input block (R241). -/
def cbcDec (db : Block → Block) : (chain : Block) → List Block → List Block
  | _, [] => []
  | chain, w :: ws => (db w ^^^ chain) :: cbcDec db w ws

/-- `CFB_ENC` from a feedback value: `c_i = w_i ⊕ EB(CHAIN)`, and CHAIN becomes `c_i` (R242). -/
def cfbEnc (eb : Block → Block) : (chain : Block) → List Block → List Block
  | _, [] => []
  | chain, w :: ws => (w ^^^ eb chain) :: cfbEnc eb (w ^^^ eb chain) ws

/-- `CFB_DEC` from a feedback value: `p_i = w_i ⊕ EB(CHAIN)`, and CHAIN becomes the input block (R243). -/
def cfbDec (eb : Block → Block) : (chain : Block) → List Block → List Block
  | _, [] => []
  | chain, w :: ws => (w ^^^ eb chain) :: cfbDec eb w ws

/-- `OFB_XOR` from a keystream value: CHAIN becomes `EB(CHAIN)` and `o_i = w_i ⊕ CHAIN` (R244). -/
def ofbXor (eb : Block → Block) : (chain : Block) → List Block → List Block
  | _, [] => []
  | chain, w :: ws => (w ^^^ eb chain) :: ofbXor eb (eb chain) ws

/-- `CTRV = (IV + i) mod 2^64` (R245). -/
def counterBlock (iv : Block) (i : Nat) : Block := BitVec.ofNat 64 (iv.toNat + i)

/-- `CTR_XOR` from block index BLK on: `o_i = w_i ⊕ EB(CTRV)` (R245). -/
def ctrXor (eb : Block → Block) (iv : Block) : (blk : Nat) → List Block → List Block
  | _, [] => []
  | blk, w :: ws => (w ^^^ eb (counterBlock iv blk)) :: ctrXor eb iv (blk + 1) ws

/-- A mode binding as a data command uses it: the kind, with the IV where the kind has one (R38, R40). -/
inductive Binding where
  | ecb
  | cbc (iv : Block)
  | cfb (iv : Block)
  | ofb (iv : Block)
  | ctr (iv : Block)
  deriving DecidableEq, Repr

/-- The case of R236: the mode function that encrypts the padded blocks. -/
def encBlocks (eb : Block → Block) : Binding → List Block → List Block
  | .ecb, ws => ecbMap eb ws
  | .cbc iv, ws => cbcEnc eb iv ws
  | .cfb iv, ws => cfbEnc eb iv ws
  | .ofb iv, ws => ofbXor eb iv ws
  | .ctr iv, ws => ctrXor eb iv 0 ws

/-- The case of R237: the mode function that decrypts the ciphertext blocks; CFB, OFB and CTR use EB, never DB. -/
def decBlocks (eb db : Block → Block) : Binding → List Block → List Block
  | .ecb, ws => ecbMap db ws
  | .cbc iv, ws => cbcDec db iv ws
  | .cfb iv, ws => cfbDec eb iv ws
  | .ofb iv, ws => ofbXor eb iv ws
  | .ctr iv, ws => ctrXor eb iv 0 ws

/-- `CTR_CHECK(nb)` (R245): whether CounterOverflow is raised. No other mode has the check. -/
def counterOverflows (overflow : CtrOverflow) (nb : Nat) : Binding → Bool
  | .ctr iv => decide (0 < nb ∧ 2 ^ 64 ≤ iv.toNat + (nb - 1) ∧ overflow = .fault)
  | .ecb => false
  | .cbc _ => false
  | .cfb _ => false
  | .ofb _ => false

end Sys2Proof.Machine
end

