-- ==== Sys2Proof/Machine/Ops.lean ====
section
/-! DEFINITION. The operations the meanings share: ending a command with a status (00_scope.md R16; 60_exceptions.md R300,
R302), reading registers (10_state.md R36, R46), and the register writes of ENGINE_INIT and MODE_INIT. -/

namespace Sys2Proof.Machine

/-- What a command answers. -/
abbrev Result := Host.Outcome State Fault Refusal

/-- The state with a response delivered. The core keeps no copy of it (R42); no register changes. -/
def State.respond (st : Status) (out : Bytes) (s : State) : State := { s with response := some ⟨st.code, out⟩ }

/-- The state with the architectural registers written. -/
def State.withRegs (r : Regs) (s : State) : State := { s with regs := r }

/-- `raise <Error>(info)`: TAKING AN ERROR. The command ends with that status and an empty OUT, and every architectural
register is as it was (R16, R300). The info reaches no response, since a response is STATUS and OUT (R100, R300). There is
no trap entry, so nothing else changes (R316), and no return from one (R317): the next command is accepted as usual. -/
def raise (e : Status) (s : State) : Result := .next (s.respond e [])

/-- `return OK(out)` (R16, R302). -/
def returnOk (out : Bytes) (s : State) : Result := .next (s.respond .ok out)

/-- Reading a register. R46: an unwritten register "holds no value: a model must fault on a read" (also
93_implementation_defined.md I5 and I6). -/
def Reg.read {α : Type} (name : RegName) (r : Reg α) : Except Fault α :=
  match r with
  | .holds v => .ok v
  | .unwritten => .error (.readUnwritten name)

/-- Reading SUBKEY[i] (R36). -/
def Regs.readSubkey (r : Regs) (i : Nat) : Except Fault Subkey :=
  match r.subkey[i]? with
  | some entry => entry.read (.subkey i)
  | none => .error (.noSuchSubkey i)

/-- Reading the SUBKEY entries whose indices are listed. -/
def Regs.readSubkeys (r : Regs) : List Nat → Except Fault (List Subkey)
  | [] => .ok []
  | i :: is =>
    match r.readSubkey i with
    | .error f => .error f
    | .ok k =>
      match r.readSubkeys is with
      | .error f => .error f
      | .ok later => .ok (k :: later)

/-- `SUBKEY[0..ROUNDS−1]`, the engine a data command runs with (R36, R192). -/
def Regs.readEngine (r : Regs) : Except Fault (List Subkey) :=
  match r.rounds.read .rounds with
  | .error f => .error f
  | .ok n => r.readSubkeys (List.range n.toNat)

/-- The binding of kind `kind`, with the IV register where the kind has an IV; nothing reads IV under ECB (R40). -/
def Regs.readBindingOf (r : Regs) (kind : Kind) : Except Fault Binding :=
  match kind with
  | .ecb => .ok .ecb
  | .cbc => (r.iv.read .iv).map .cbc
  | .cfb => (r.iv.read .iv).map .cfb
  | .ofb => (r.iv.read .iv).map .ofb
  | .ctr => (r.iv.read .iv).map .ctr

/-- The mode binding: MODE_KIND and, for a chained kind, IV (R38, R40). -/
def Regs.readBinding (r : Regs) : Except Fault Binding :=
  match r.modeKind.read .modeKind with
  | .error f => .error f
  | .ok kind => r.readBindingOf kind

/-- The register writes of a successful ENGINE_INIT (R148): KEY, ROUNDS, all of SUBKEY, and the flags. -/
def Regs.buildEngine (t : Tables) (kb : Bytes) (rounds : Nat) (r : Regs) : Regs :=
  { r with
    key := .holds (be64 kb)
    rounds := .holds (BitVec.ofNat 6 rounds)
    subkey := subkeyFile (ks t kb rounds) }.flagEngineBuilt

/-- The register writes of a successful MODE_INIT (R235): MODE_KIND, MODE_STRICT and the flag. -/
def Regs.bindMode (kind : Kind) (strict : Bool) (r : Regs) : Regs :=
  { r with modeKind := .holds kind, modeStrict := .holds strict }.flagModeBound

/-- The IV write of MODE_INIT, for the kinds that have an IV (R40, R235). -/
def Regs.setIv (iv : Block) (r : Regs) : Regs := { r with iv := .holds iv }

/-- BLOCK_ENC and BLOCK_DEC, which differ in direction only (R192, R193). -/
def blockCommand (dir : Dir) (s : State) : Result :=
  if s.regs.engineValid = false then raise .noEngine s
  else if s.dataIn.length ≠ 8 then raise .invalidBlockLength s
  else
    match s.regs.readEngine with
    | .error f => .fault f
    | .ok keys => returnOk (bytes8 (cipher s.cfg dir keys (be64 (memRead s.dataIn 0 8)))) s

/-- MODE_INIT of one kind (R235). ECB ignores IVP and IV_IN. -/
def modeInit (kind : Kind) (ivp strict : Bool) (s : State) : Result :=
  if s.regs.engineValid = false then raise .noEngine s
  else if kind = .ecb then returnOk [] (s.withRegs (s.regs.bindMode kind strict))
  else if ivp = false then raise .missingIV s
  else if s.ivIn.length ≠ 8 then raise .invalidIVLength s
  else returnOk [] (s.withRegs ((s.regs.setIv (be64 (memRead s.ivIn 0 8))).bindMode kind strict))

end Sys2Proof.Machine
end

