-- ==== Sys2Proof/Machine/Engine.lean ====
section
/-! DEFINITION. The engine's commands: ENGINE_INIT (40_key_schedule.md R148), BLOCK_ENC and BLOCK_DEC
(41_round_engine.md R192, R193). -/

namespace Sys2Proof.Machine

/-- ENGINE_INIT (R148): a round count outside [8, 32] raises InvalidRounds and changes nothing; any key is accepted. -/
def execEngineInit (rounds : Nat) (s : State) : Result :=
  if 8 ≤ rounds ∧ rounds ≤ 32 then
    returnOk [] (s.withRegs (s.regs.buildEngine s.cfg.tables (normKey s.keyIn) rounds))
  else raise .invalidRounds s

/-- BLOCK_ENC (R192). -/
def execBlockEnc (s : State) : Result := blockCommand .enc s

/-- BLOCK_DEC (R193). -/
def execBlockDec (s : State) : Result := blockCommand .dec s

end Sys2Proof.Machine
end

