-- ==== Sys2Proof/Machine/ModeLayer.lean ====
section
/-! DEFINITION. The mode layer's commands: MODE_INIT of each kind, MODE_ENC and MODE_DEC (42_modes.md R235 to R237). -/

namespace Sys2Proof.Machine

/-- MODE_INIT (ECB), R235. -/
def execModeInitEcb (ivp strict : Bool) (s : State) : Result := modeInit .ecb ivp strict s

/-- MODE_INIT (CBC), R235. -/
def execModeInitCbc (ivp strict : Bool) (s : State) : Result := modeInit .cbc ivp strict s

/-- MODE_INIT (CFB), R235. -/
def execModeInitCfb (ivp strict : Bool) (s : State) : Result := modeInit .cfb ivp strict s

/-- MODE_INIT (OFB), R235. -/
def execModeInitOfb (ivp strict : Bool) (s : State) : Result := modeInit .ofb ivp strict s

/-- MODE_INIT (CTR), R235. -/
def execModeInitCtr (ivp strict : Bool) (s : State) : Result := modeInit .ctr ivp strict s

/-- MODE_ENC (R236): WORK is the padded data. -/
def execModeEnc (s : State) : Result :=
  if s.regs.modeValid = false then raise .noMode s
  else if s.cfg.maxDataLen < s.dataIn.length then raise .dataTooLong s
  else
    match s.regs.readBinding with
    | .error f => .fault f
    | .ok binding =>
      let work := blocks (pad s.dataIn)
      if counterOverflows s.cfg.ctrOverflow work.length binding then raise .counterOverflow s
      else
        match s.regs.readEngine with
        | .error f => .fault f
        | .ok keys => returnOk (unblocks (encBlocks (cipher s.cfg .enc keys) binding work)) s

/-- MODE_DEC (R237): WORK is the input ciphertext; the result is unpadded as MODE_STRICT selects. -/
def execModeDec (s : State) : Result :=
  if s.regs.modeValid = false then raise .noMode s
  else if s.cfg.maxDataLen < s.dataIn.length then raise .dataTooLong s
  else if s.dataIn.length % 8 ≠ 0 then raise .invalidBlockLength s
  else
    match s.regs.readBinding with
    | .error f => .fault f
    | .ok binding =>
      let work := blocks s.dataIn
      if counterOverflows s.cfg.ctrOverflow work.length binding then raise .counterOverflow s
      else
        match s.regs.readEngine, s.regs.modeStrict.read .modeStrict with
        | .error f, _ => .fault f
        | .ok _, .error f => .fault f
        | .ok keys, .ok strict =>
          match unpad strict (unblocks (decBlocks (cipher s.cfg .enc keys) (cipher s.cfg .dec keys) binding work)) with
          | some out => returnOk out s
          | none => raise .invalidPadding s

end Sys2Proof.Machine
end

