-- ==== Sys2Proof/Machine/Dispatch.lean ====
section
/-! DEFINITION. Which meaning each instruction has. -/

namespace Sys2Proof.Machine

def exec (i : Instr) (s : State) : Host.Outcome State Fault Refusal :=
  match i with
  | .engineInit rounds => Sys2Proof.Machine.execEngineInit rounds s
  | .blockEnc => Sys2Proof.Machine.execBlockEnc s
  | .blockDec => Sys2Proof.Machine.execBlockDec s
  | .modeInitEcb ivp strict => Sys2Proof.Machine.execModeInitEcb ivp strict s
  | .modeInitCbc ivp strict => Sys2Proof.Machine.execModeInitCbc ivp strict s
  | .modeInitCfb ivp strict => Sys2Proof.Machine.execModeInitCfb ivp strict s
  | .modeInitOfb ivp strict => Sys2Proof.Machine.execModeInitOfb ivp strict s
  | .modeInitCtr ivp strict => Sys2Proof.Machine.execModeInitCtr ivp strict s
  | .modeEnc => Sys2Proof.Machine.execModeEnc s
  | .modeDec => Sys2Proof.Machine.execModeDec s

end Sys2Proof.Machine
end

