-- ==== Sys2Proof/WellFormed.lean ====
section
/-! DEFINITION. Which terms of Instr a command word can carry. -/

namespace Sys2Proof

/-- ROUNDS is an 8-bit field, so a count above 255 has no encoding (30_encoding.md R106, R114: "n must be 0..255, else
the assembler refuses the line"). Every other field is exact by its type. -/
def Instr.wf : Instr → Bool
  | .engineInit rounds => decide (rounds ≤ 255)
  | .blockEnc => true
  | .blockDec => true
  | .modeInitEcb _ _ => true
  | .modeInitCbc _ _ => true
  | .modeInitCfb _ _ => true
  | .modeInitOfb _ _ => true
  | .modeInitCtr _ _ => true
  | .modeEnc => true
  | .modeDec => true

end Sys2Proof
end

