-- ==== Sys2Proof/Decode.lean ====
section
/-! DEFINITION. The decoder of 30_encoding.md R107 to R109, total on all 2^32 words, and after it the encoder of R114.
A command word reaches the core as one 32-bit value (R100), so no byte order is involved (notes/assumptions/8.md). -/

namespace Sys2Proof

/-- The ten rows of R107, by name. -/
inductive Op where
  | engineInit
  | blockEnc
  | blockDec
  | modeInit (kind : Kind)
  | modeEnc
  | modeDec
  deriving DecidableEq, Repr

/-- One row of R107: a word is this command exactly when `CMD & mask = pattern`. -/
structure Row where
  op : Op
  pattern : CmdWord
  mask : CmdWord
  deriving DecidableEq, Repr

/-- The table of R107. -/
def opcodeRows : List Row :=
  [ ⟨.engineInit,    0x00000001, 0xFF00FFFF⟩,
    ⟨.blockEnc,      0x00000002, 0xFFFFFFFF⟩,
    ⟨.blockDec,      0x00000003, 0xFFFFFFFF⟩,
    ⟨.modeInit .ecb, 0x00000004, 0xFFFFFE7F⟩,
    ⟨.modeInit .cbc, 0x00000014, 0xFFFFFE7F⟩,
    ⟨.modeInit .cfb, 0x00000024, 0xFFFFFE7F⟩,
    ⟨.modeInit .ofb, 0x00000034, 0xFFFFFE7F⟩,
    ⟨.modeInit .ctr, 0x00000044, 0xFFFFFE7F⟩,
    ⟨.modeEnc,       0x00000005, 0xFFFFFFFF⟩,
    ⟨.modeDec,       0x00000006, 0xFFFFFFFF⟩ ]

/-- `(CMD & mask) == match` (R107). -/
def Row.accepts (r : Row) (cmd : CmdWord) : Bool := cmd &&& r.mask == r.pattern

/-- The ROUNDS field, bits [23:16], zero-extended (R106). -/
def roundsField (cmd : CmdWord) : Nat := (cmd.extractLsb' 16 8).toNat

/-- The IVP field, bit 7 (R104). -/
def ivpField (cmd : CmdWord) : Bool := cmd.getLsbD 7

/-- The STRICT field, bit 8 (R105). -/
def strictField (cmd : CmdWord) : Bool := cmd.getLsbD 8

/-- The OP field, bits [3:0] (R102). -/
def opField (cmd : CmdWord) : Nat := (cmd.extractLsb' 0 4).toNat

/-- The KIND field, bits [6:4] (R103). -/
def kindField (cmd : CmdWord) : Nat := (cmd.extractLsb' 4 3).toNat

/-- MODE_INIT of one kind with its two fields. -/
def modeInitInstr (kind : Kind) (ivp strict : Bool) : Instr :=
  match kind with
  | .ecb => .modeInitEcb ivp strict
  | .cbc => .modeInitCbc ivp strict
  | .cfb => .modeInitCfb ivp strict
  | .ofb => .modeInitOfb ivp strict
  | .ctr => .modeInitCtr ivp strict

/-- The variable fields of a row, read from the word (R107's last column). -/
def Op.build (op : Op) (cmd : CmdWord) : Instr :=
  match op with
  | .engineInit => .engineInit (roundsField cmd)
  | .blockEnc => .blockEnc
  | .blockDec => .blockDec
  | .modeInit kind => modeInitInstr kind (ivpField cmd) (strictField cmd)
  | .modeEnc => .modeEnc
  | .modeDec => .modeDec

/-- Why a word is ILLEGAL, in the three cases of R109 and 60_exceptions.md R307. The core answers all three with
IllegalCommand; the names serve the reader only (notes/assumptions/9.md). -/
inductive Illegal where
  | reservedOp
  | reservedKind
  | nonzeroUnusedField
  deriving DecidableEq, Repr

/-- The case of R307 that a word matching no row falls under. -/
def illegalReason (cmd : CmdWord) : Illegal :=
  if opField cmd = 0 ∨ 7 ≤ opField cmd then .reservedOp
  else if opField cmd = 4 ∧ 5 ≤ kindField cmd then .reservedKind
  else .nonzeroUnusedField

/-- `decode` of R108: the first row that accepts the word, else ILLEGAL. -/
def decode (cmd : CmdWord) : Except Illegal Instr :=
  match opcodeRows.find? (fun r => r.accepts cmd) with
  | some r => .ok (r.op.build cmd)
  | none => .error (illegalReason cmd)

/-- KIND as R103 numbers it. -/
def Kind.field : Kind → CmdWord
  | .ecb => 0
  | .cbc => 1
  | .cfb => 2
  | .ofb => 3
  | .ctr => 4

/-- MODE_INIT's word (R114): `0x00000004 | (kind << 4) | (ivp << 7) | (strict << 8)`. -/
def encodeModeInit (kind : Kind) (ivp strict : Bool) : CmdWord :=
  0x00000004 ||| (kind.field <<< 4) ||| ((if ivp then 1 else 0) <<< 7) ||| ((if strict then 1 else 0) <<< 8)

/-- The command word of a well-formed instruction (R114). -/
def encode : Instr → CmdWord
  | .engineInit rounds => 0x00000001 ||| (BitVec.ofNat 32 rounds <<< 16)
  | .blockEnc => 0x00000002
  | .blockDec => 0x00000003
  | .modeInitEcb ivp strict => encodeModeInit .ecb ivp strict
  | .modeInitCbc ivp strict => encodeModeInit .cbc ivp strict
  | .modeInitCfb ivp strict => encodeModeInit .cfb ivp strict
  | .modeInitOfb ivp strict => encodeModeInit .ofb ivp strict
  | .modeInitCtr ivp strict => encodeModeInit .ctr ivp strict
  | .modeEnc => 0x00000005
  | .modeDec => 0x00000006

/-- The command word whose low `nbits` bits are `w`, every higher bit 0 (the host's numbering of a table word). -/
def tableWord (nbits w : Nat) : CmdWord := BitVec.ofNat 32 (w % 2 ^ nbits)

/-- What the decoder reads from a word numbered as spec/opcode_table.json numbers it. Every command word is 32 bits
(R101), so a longer word is none of the core's. -/
def decodeTableWord (nbits w : Nat) : Option Instr :=
  if nbits ≤ 32 then
    match decode (tableWord nbits w) with
    | .ok i => some i
    | .error _ => none
  else none

end Sys2Proof
end

