-- ==== Sys2Proof/Machine/Interface.lean ====
section
/-! DEFINITION. One transaction on the core's interface (30_encoding.md R100, R108, R109; 70_reset_and_hazards.md R340,
R341), over the instructions' meanings given as a parameter. Machine/Step.lean closes it with exec. -/

namespace Sys2Proof.Machine

/-- The core takes a request: the operands are captured in the operand buffers (R77), and no response stands yet. -/
def State.accept (r : Request) (rest : List Event) (s : State) : State :=
  { s with keyIn := r.keyIn, ivIn := r.ivIn, dataIn := r.dataIn, response := none, pending := rest }

/-- The idle core: it waits for a command, holds its registers and delivers no response (R341, R324). -/
def State.idle (s : State) : State := { s with response := none }

/-- The reset event (R340): reset values win, and no response is returned, whether or not a command was in progress. -/
def State.takeReset (rest : List Event) (s : State) : State := { State.resetWith s.cfg with pending := rest }

/-- A word the decoder refuses raises IllegalCommand, whatever the state and operands (R109, R313). -/
def refuseWord (s : State) : Result := raise .illegalCommand s

/-- A captured request: decode the word before every other check (R108), then run the instruction. -/
def runWord (meaning : Instr → State → Result) (cmd : CmdWord) (s : State) : Result :=
  match decode cmd with
  | .ok i => meaning i s
  | .error _ => refuseWord s

/-- The next event of the outside world. -/
def runEvent (meaning : Instr → State → Result) (s : State) : Result :=
  match s.pending with
  | [] => .next s.idle
  | .reset :: rest => .next (s.takeReset rest)
  | .resetDuring _ :: rest => .next (s.takeReset rest)
  | .request r :: rest => runWord meaning r.cmd (s.accept r rest)

/-- One step: a configuration that fails the shape check is refused and not run (41_round_engine.md R188). -/
def stepWith (meaning : Instr → State → Result) (s : State) : Result :=
  if shapeOk s.cfg.tables then runEvent meaning s else .refused .malformedTables

/-- The host issues one more request, to be taken before everything already pending. -/
def State.issue (r : Request) (s : State) : State := { s with pending := .request r :: s.pending }

/-- The host issues the command word `cmd` with the operands that stand in the operand buffers. -/
def State.issueWord (cmd : CmdWord) (s : State) : State := s.issue ⟨cmd, s.keyIn, s.ivIn, s.dataIn⟩

end Sys2Proof.Machine
end

