-- ==== Sys2Proof/Machine/Step.lean ====
section
/-! DEFINITION. One step of the machine: one command, reset event or idle moment (00_scope.md R17, 70_reset R349). -/

namespace Sys2Proof.Machine

/-- `step(S, C) = (S', Resp)` of R17: the command C is the first of `pending`, and Resp is `response` of the next state. -/
def step (s : State) : Host.Outcome State Fault Refusal := stepWith exec s

/-- The state whose next step runs the command word `w`: the core fetches nothing (20_memory.md R84), so the word is put
where the host's next request stands, with the operands already in the operand buffers (notes/assumptions/8.md). -/
def State.withFetchWord (s : State) (nbits w : Nat) : State := s.issueWord (tableWord nbits w)

end Sys2Proof.Machine
end

