-- ==== Sys2Proof/Machine/Assembler.lean ====
section
/-! DEFINITION. The assembler of 30_encoding.md R112 to R116: a line of text to a line of the assembly language, and that
to the requests it stands for. Lexical points R112 and R113 leave open are listed in notes/assumptions/13.md. -/

namespace Sys2Proof.Machine

/-- A line of the assembly language: the six command forms of R112 and the two pseudo-instructions of R116. -/
inductive AsmLine where
  | engineInit (key : Bytes) (rounds : Option Nat)
  | blockEnc (data : Bytes)
  | blockDec (data : Bytes)
  | modeInit (kind : Kind) (iv : Option Bytes) (strict : Bool)
  | modeEnc (data : Bytes)
  | modeDec (data : Bytes)
  | encrypt (kind : Kind) (key : Bytes) (iv : Option Bytes) (rounds : Option Nat) (data : Bytes)
  | decrypt (kind : Kind) (key : Bytes) (iv : Option Bytes) (rounds : Option Nat) (strict : Bool) (data : Bytes)
  deriving DecidableEq, Repr

/-- ROUNDS_DEFAULT, the round count of an omitted `rounds=` (R115). -/
def roundsDefault : Nat := 16

/-- The ENGINE_INIT request; none where the assembler refuses the line, n not being in 0..255 (R114). -/
def asmEngineInit (key : Bytes) (rounds : Option Nat) : Option Request :=
  if rounds.getD roundsDefault ≤ 255 then
    some ⟨encode (.engineInit (rounds.getD roundsDefault)), key, [], []⟩
  else none

/-- The MODE_INIT request: IVP is 1 exactly when `iv=` is written, STRICT exactly when `strict` is (R114). -/
def asmModeInit (kind : Kind) (iv : Option Bytes) (strict : Bool) : Request :=
  ⟨encode (modeInitInstr kind iv.isSome strict), [], iv.getD [], []⟩

/-- The requests a line assembles to (R114), a pseudo-instruction to its expansion (R116); none where it is refused. -/
def assemble : AsmLine → Option (List Request)
  | .engineInit key rounds => (asmEngineInit key rounds).map ([·])
  | .blockEnc data => some [⟨encode .blockEnc, [], [], data⟩]
  | .blockDec data => some [⟨encode .blockDec, [], [], data⟩]
  | .modeInit kind iv strict => some [asmModeInit kind iv strict]
  | .modeEnc data => some [⟨encode .modeEnc, [], [], data⟩]
  | .modeDec data => some [⟨encode .modeDec, [], [], data⟩]
  | .encrypt kind key iv rounds data =>
    (asmEngineInit key rounds).map ([·, asmModeInit kind iv false, ⟨encode .modeEnc, [], [], data⟩])
  | .decrypt kind key iv rounds strict data =>
    (asmEngineInit key rounds).map ([·, asmModeInit kind iv strict, ⟨encode .modeDec, [], [], data⟩])

/-! ### The text of a line -/

/-- The words of a line: separated by spaces outside string quotes, up to a `;` outside string quotes (R112). -/
def lineWords : (inString : Bool) → (word : List Char) → List Char → List (List Char)
  | _, word, [] => if word.isEmpty then [] else [word.reverse]
  | inString, word, c :: cs =>
    if c = '"' then lineWords (!inString) (c :: word) cs
    else if inString then lineWords true (c :: word) cs
    else if c = ';' then (if word.isEmpty then [] else [word.reverse])
    else if c = ' ' then
      if word.isEmpty then lineWords false [] cs else word.reverse :: lineWords false [] cs
    else lineWords false (c :: word) cs

/-- A hexadecimal digit, either case. -/
def hexDigit (c : Char) : Option Nat :=
  if '0' ≤ c ∧ c ≤ '9' then some (c.toNat - '0'.toNat)
  else if 'a' ≤ c ∧ c ≤ 'f' then some (c.toNat - 'a'.toNat + 10)
  else if 'A' ≤ c ∧ c ≤ 'F' then some (c.toNat - 'A'.toNat + 10)
  else none

/-- Two hexadecimal digits as a byte. -/
def hexByte (hi lo : Char) : Option Byte :=
  match hexDigit hi, hexDigit lo with
  | some h, some l => some (BitVec.ofNat 8 (16 * h + l))
  | _, _ => none

/-- The bytes after `0x`: an even number of digits, most significant byte first (R113). -/
def hexBytes : List Char → Option Bytes
  | [] => some []
  | [_] => none
  | hi :: lo :: cs =>
    match hexByte hi lo, hexBytes cs with
    | some b, some bs => some (b :: bs)
    | _, _ => none

/-- The bytes after an opening quote: ASCII characters, `\xHH` for any byte, then the closing quote (R113). -/
def stringBytes : List Char → Option Bytes
  | [] => none
  | '"' :: cs => if cs.isEmpty then some [] else none
  | '\\' :: 'x' :: hi :: lo :: cs =>
    match hexByte hi lo, stringBytes cs with
    | some b, some bs => some (b :: bs)
    | _, _ => none
  | '\\' :: _ => none
  | c :: cs => if c.toNat < 128 then (stringBytes cs).map (BitVec.ofNat 8 c.toNat :: ·) else none

/-- A byte literal `<bytes>` (R113). -/
def byteLiteral : List Char → Option Bytes
  | '"' :: cs => stringBytes cs
  | '0' :: 'x' :: cs => hexBytes cs
  | _ => none

/-- The decimal digits after those already read. -/
def decimalFrom : (acc : Nat) → List Char → Option Nat
  | acc, [] => some acc
  | acc, c :: cs => if '0' ≤ c ∧ c ≤ '9' then decimalFrom (10 * acc + (c.toNat - '0'.toNat)) cs else none

/-- A decimal natural `<n>` (R113). -/
def decimalLiteral (cs : List Char) : Option Nat := if cs.isEmpty then none else decimalFrom 0 cs

/-- A kind name, upper case (R112). -/
def kindLiteral (cs : List Char) : Option Kind :=
  if cs = ['E', 'C', 'B'] then some .ecb
  else if cs = ['C', 'B', 'C'] then some .cbc
  else if cs = ['C', 'F', 'B'] then some .cfb
  else if cs = ['O', 'F', 'B'] then some .ofb
  else if cs = ['C', 'T', 'R'] then some .ctr
  else none

/-- The operands written on a line. -/
structure AsmOperands where
  key : Option Bytes
  iv : Option Bytes
  data : Option Bytes
  rounds : Option Nat
  kind : Option Kind
  strict : Bool
  deriving DecidableEq, Repr

/-- A line with no operand written. -/
def AsmOperands.none : AsmOperands := ⟨.none, .none, .none, .none, .none, false⟩

/-- The name and the value of a `name=value` word, split at the first `=`; a word without one is a name alone. -/
def splitOperand : List Char → List Char × Option (List Char)
  | [] => ([], .none)
  | c :: cs =>
    if c = '=' then ([], some cs)
    else (c :: (splitOperand cs).1, (splitOperand cs).2)

/-- One more operand word; none for an unknown name, a malformed value, or a name written twice. -/
def AsmOperands.add (ops : AsmOperands) (word : List Char) : Option AsmOperands :=
  match splitOperand word with
  | (name, some value) =>
    if name = ['k', 'e', 'y'] ∧ ops.key = .none then (byteLiteral value).map fun b => { ops with key := some b }
    else if name = ['i', 'v'] ∧ ops.iv = .none then (byteLiteral value).map fun b => { ops with iv := some b }
    else if name = ['d', 'a', 't', 'a'] ∧ ops.data = .none then
      (byteLiteral value).map fun b => { ops with data := some b }
    else if name = ['r', 'o', 'u', 'n', 'd', 's'] ∧ ops.rounds = .none then
      (decimalLiteral value).map fun n => { ops with rounds := some n }
    else if name = ['k', 'i', 'n', 'd'] ∧ ops.kind = .none then
      (kindLiteral value).map fun k => { ops with kind := some k }
    else .none
  | (name, .none) =>
    if name = ['s', 't', 'r', 'i', 'c', 't'] ∧ ops.strict = false then some { ops with strict := true } else .none

/-- All operand words, in any order (R112). -/
def AsmOperands.addAll (ops : AsmOperands) : List (List Char) → Option AsmOperands
  | [] => some ops
  | word :: words =>
    match ops.add word with
    | some ops' => ops'.addAll words
    | .none => .none

/-- The operands of one form of R112 or R116, exactly those the form allows. -/
def lineOfForm (mnemonic : List Char) (ops : AsmOperands) : Option AsmLine :=
  match mnemonic, ops with
  | ['E', 'N', 'G', 'I', 'N', 'E', '_', 'I', 'N', 'I', 'T'], ⟨some key, .none, .none, rounds, .none, false⟩ =>
    some (.engineInit key rounds)
  | ['B', 'L', 'O', 'C', 'K', '_', 'E', 'N', 'C'], ⟨.none, .none, some data, .none, .none, false⟩ =>
    some (.blockEnc data)
  | ['B', 'L', 'O', 'C', 'K', '_', 'D', 'E', 'C'], ⟨.none, .none, some data, .none, .none, false⟩ =>
    some (.blockDec data)
  | ['M', 'O', 'D', 'E', '_', 'I', 'N', 'I', 'T'], ⟨.none, iv, .none, .none, some kind, strict⟩ =>
    some (.modeInit kind iv strict)
  | ['M', 'O', 'D', 'E', '_', 'E', 'N', 'C'], ⟨.none, .none, some data, .none, .none, false⟩ => some (.modeEnc data)
  | ['M', 'O', 'D', 'E', '_', 'D', 'E', 'C'], ⟨.none, .none, some data, .none, .none, false⟩ => some (.modeDec data)
  | ['E', 'N', 'C', 'R', 'Y', 'P', 'T'], ⟨some key, iv, some data, rounds, some kind, false⟩ =>
    some (.encrypt kind key iv rounds data)
  | ['D', 'E', 'C', 'R', 'Y', 'P', 'T'], ⟨some key, iv, some data, rounds, some kind, strict⟩ =>
    some (.decrypt kind key iv rounds strict data)
  | _, _ => .none

/-- What a line of text is: nothing (blank or comment only), a line of the language, or refused. -/
inductive ParsedLine where
  | blank
  | line (l : AsmLine)
  | refused
  deriving DecidableEq, Repr

/-- Reading one line of text (R112). -/
def parseLine (text : List Char) : ParsedLine :=
  match lineWords false [] text with
  | [] => .blank
  | mnemonic :: words =>
    match AsmOperands.none.addAll words with
    | .none => .refused
    | some ops =>
      match lineOfForm mnemonic ops with
      | some l => .line l
      | .none => .refused

/-- The requests of one line of text; none where the assembler refuses it. -/
def assembleText (text : List Char) : Option (List Request) :=
  match parseLine text with
  | .blank => some []
  | .line l => assemble l
  | .refused => none

end Sys2Proof.Machine
end

