-- ==== Sys2Proof/Machine/Pseudo.lean ====
section
/-! DEFINITION. Running what a line assembles to (30_encoding.md R116): the commands of an expansion one after another,
stopping at the first that fails. -/

namespace Sys2Proof.Machine

/-- Whether the last step's response has STATUS OK (R302). -/
def State.responseOk (s : State) : Bool :=
  match s.response with
  | some r => r.status == Status.ok.code
  | none => false

/-- The host issues one request and the core takes it (R100). -/
def transact (r : Request) (s : State) : Result := step (s.issue r)

/-- The commands of an expansion in order; "If an earlier command of the expansion fails, the expansion stops there and
its status is the result" (R116). The result is the response of the state reached. -/
def runExpansion : List Request → State → Result
  | [], s => .next s
  | r :: rs, s =>
    match transact r s with
    | .next t => if t.responseOk then runExpansion rs t else .next t
    | .fault f => .fault f
    | .refused e => .refused e

end Sys2Proof.Machine
end

