-- ==== Sys2Proof/Machine/HostView.lean ====
section
/-! DEFINITION. What the host can observe: the responses of the commands it issues and nothing else (10_state.md R45). A
claim about what the host knows is a HostClaim, whose type gives it no access to KEY, SUBKEY or any other register. -/

namespace Sys2Proof.Machine

/-- The machine as it stands when the host is about to do `ev` and nothing else yet. -/
def State.facing (ev : Event) (s : State) : State := { s with pending := [ev] }

/-- The responses the host gets when it does these events one after another, none for an event that gets none (R45,
R100; 70_reset R340). Where a step stops, the host sees nothing more (notes/assumptions/17.md). -/
def State.hostView (s : State) : List Event → List (Option Response)
  | [] => []
  | ev :: evs =>
    match step (s.facing ev) with
    | .next t => t.response :: t.hostView evs
    | .fault _ => []
    | .refused _ => []

/-- A claim about what the host observes of a machine. R45: "A model must not give a claim access to KEY or SUBKEY except
through those responses"; such a claim is handed the responses only. -/
abbrev HostClaim := (List Event → List (Option Response)) → Prop

/-- Whether a claim about the host's observations holds of a machine. -/
def State.satisfies (s : State) (claim : HostClaim) : Prop := claim s.hostView

end Sys2Proof.Machine
end

