-- ==== Sys2Proof/Safety.lean ====
section
/-! DEFINITION. What a claim about a safe run speaks of: the invariants of 10_state.md R47, when a data command's reads
succeed, and which states the host cannot tell apart (10_state.md R45). -/

namespace Sys2Proof.Machine

/-- KEY, ROUNDS and SUBKEY hold an engine built by ENGINE_INIT (R33, R47 point 2): 8 ≤ ROUNDS ≤ 32, the first ROUNDS
entries of SUBKEY are `KS(BYTES8(KEY), ROUNDS)`, and the later entries are unwritten (R36). -/
def EngineBuilt (t : Tables) (r : Regs) : Prop :=
  ∃ (key : Block) (rounds : BitVec 6),
    r.key = .holds key ∧ r.rounds = .holds rounds ∧ 8 ≤ rounds.toNat ∧ rounds.toNat ≤ 32 ∧
    (∀ i : Fin 32, i.val < rounds.toNat → (ks t (bytes8 key) rounds.toNat)[i.val]?.map Reg.holds = some r.subkey[i]) ∧
    (∀ i : Fin 32, rounds.toNat ≤ i.val → r.subkey[i] = .unwritten)

/-- MODE_KIND and MODE_STRICT hold a binding, and IV a value when MODE_KIND ≠ ECB (R37, R47 point 3). -/
def ModeBound (r : Regs) : Prop :=
  ∃ (kind : Kind) (strict : Bool),
    r.modeKind = .holds kind ∧ r.modeStrict = .holds strict ∧ (kind ≠ .ecb → ∃ iv, r.iv = .holds iv)

/-- The invariants that every command preserves (R47), and R36's word on the entries beyond ROUNDS. -/
def Inv (s : State) : Prop :=
  (s.regs.modeValid = true → s.regs.engineValid = true) ∧
  (s.regs.engineValid = true → EngineBuilt s.cfg.tables s.regs) ∧
  (s.regs.modeValid = true → ModeBound s.regs)

/-- The subkeys `KS(BYTES8(KEY), ROUNDS)` of the engine that KEY and ROUNDS name (R47 point 2). -/
def EngineKeys (s : State) (keys : List Subkey) : Prop :=
  ∃ (key : Block) (rounds : BitVec 6),
    s.regs.key = .holds key ∧ s.regs.rounds = .holds rounds ∧ keys = ks s.cfg.tables (bytes8 key) rounds.toNat

/-- The state with the register KEY replaced, to say what a command learns of it (R34, R45). -/
def State.setKey (key : Reg Block) (s : State) : State := { s with regs := { s.regs with key := key } }

/-- The state with the register MODE_KIND replaced, to compare the modes under one IV (42_modes.md R251). -/
def State.setKind (kind : Kind) (s : State) : State := { s with regs := { s.regs with modeKind := .holds kind } }

/-- The answer of a command that ends with this status and these bytes and writes no register (R300, R302). -/
def State.answering (s : State) (status : BitVec 8) (out : Bytes) : Result :=
  .next { s with response := some ⟨status, out⟩ }

/-- A reset event, alone or during a command (70_reset R340). -/
def Event.isReset : Event → Bool
  | .request _ => false
  | .reset => true
  | .resetDuring _ => true

/-- No block of a CTR message of `nb` blocks makes the counter reach 2^64, or the core wraps (42_modes.md R245). -/
def CtrInRange (s : State) (iv : Block) (nb : Nat) : Prop :=
  s.cfg.ctrOverflow = .fault → iv.toNat + (nb - 1) < 2 ^ 64

/-- Two machines that agree wherever a valid bit says that a register holds something: the configuration, the two valid
bits, ROUNDS and SUBKEY while an engine or a mode is valid, and MODE_KIND, MODE_STRICT and, for a chained kind, IV while a
mode is valid. Nothing is asked of KEY (R34). -/
structure SameToTheHost (s u : State) : Prop where
  cfg : s.cfg = u.cfg
  engineValid : s.regs.engineValid = u.regs.engineValid
  modeValid : s.regs.modeValid = u.regs.modeValid
  engine : s.regs.engineValid = true ∨ s.regs.modeValid = true →
    s.regs.rounds = u.regs.rounds ∧ s.regs.subkey = u.regs.subkey
  mode : s.regs.modeValid = true →
    s.regs.modeKind = u.regs.modeKind ∧ s.regs.modeStrict = u.regs.modeStrict ∧
    (s.regs.modeKind ≠ .holds .ecb → s.regs.iv = u.regs.iv)

/-- MODE_KIND holds a kind, and IV a value if the kind has one: the binding can be read (R38, R40). -/
def BindingHeld (s : State) : Prop :=
  ∃ kind, s.regs.modeKind = .holds kind ∧ (kind ≠ .ecb → s.regs.iv ≠ .unwritten)

/-- ROUNDS holds a count of at most 32 and the first ROUNDS entries of SUBKEY hold values: the engine can be read (R36). -/
def EngineHeld (s : State) : Prop :=
  ∃ n : BitVec 6, s.regs.rounds = .holds n ∧ n.toNat ≤ 32 ∧ ∀ j : Fin 32, j.val < n.toNat → s.regs.subkey[j] ≠ .unwritten

/-- SUBKEY[j] is the first of the entries 0 to ROUNDS − 1 that holds no value (R36). -/
def FirstUnwrittenSubkey (s : State) (j : Fin 32) : Prop :=
  ∃ n : BitVec 6, s.regs.rounds = .holds n ∧ j.val < n.toNat ∧ s.regs.subkey[j] = .unwritten ∧
    ∀ j' : Fin 32, j' < j → s.regs.subkey[j'] ≠ .unwritten

/-- The counter of a CTR message of `nb` blocks stays in range, whatever IV holds; nothing is asked of another kind. -/
def CounterInRange (s : State) (nb : Nat) : Prop :=
  ∀ iv, s.regs.modeKind = .holds .ctr → s.regs.iv = .holds iv → CtrInRange s iv nb

/-- MODE_DEC, having decrypted to the bytes `w`, answers them unpadded by the policy: the lenient policy always with OK
(60_exceptions.md R306), the strict one with InvalidPadding where it raises that error (42_modes.md R231, R232, R237). -/
def AnswersUnpadded (s : State) (strict : Bool) (w : Bytes) : Prop :=
  (strict = false → exec .modeDec s = s.answering 0x00 (unpadLenient w)) ∧
  (strict = true → ∀ out, unpadStrict w = some out → exec .modeDec s = s.answering 0x00 out) ∧
  (strict = true → unpadStrict w = none → exec .modeDec s = s.answering 0x04 [])

end Sys2Proof.Machine
end

