-- ==== Sys2Proof/Certificates/Slice0/Obligations.lean ====
section
/-! DEFINITION. The statements made about the model for the provers. Each docstring names the rules of spec/ it rests on;
OBLIGATIONS.json lists them. -/

open Sys2Proof Sys2Proof.Machine

/-! ### Encoding -/

/-- R114 and R107: the word of every well-formed instruction decodes to that instruction. -/
def Obligations.EncodedInstructionDecodesToItself : Prop :=
  ∀ i : Instr, i.wf = true → decode (encode i) = .ok i

/-- R107, R109: each command word has one meaning, so a decoded instruction is well formed and its word is the one
decoded. -/
def Obligations.DecodedWordIsTheEncodingOfItsInstruction : Prop :=
  ∀ (w : CmdWord) (i : Instr), decode w = .ok i → i.wf = true ∧ encode i = w

/-- R107: a word is a command exactly when it matches the command's row, the variable fields are the bits the row names,
and no word matches two rows. -/
def Obligations.DecoderFollowsMaskAndMatch : Prop :=
  (∀ w : CmdWord,
    (∀ r, decode w = .ok (.engineInit r) ↔ w &&& 0xFF00FFFF = 0x00000001 ∧ r = (w.extractLsb' 16 8).toNat) ∧
    (decode w = .ok .blockEnc ↔ w &&& 0xFFFFFFFF = 0x00000002) ∧
    (decode w = .ok .blockDec ↔ w &&& 0xFFFFFFFF = 0x00000003) ∧
    (∀ v t, decode w = .ok (.modeInitEcb v t) ↔ w &&& 0xFFFFFE7F = 0x00000004 ∧ v = w.getLsbD 7 ∧ t = w.getLsbD 8) ∧
    (∀ v t, decode w = .ok (.modeInitCbc v t) ↔ w &&& 0xFFFFFE7F = 0x00000014 ∧ v = w.getLsbD 7 ∧ t = w.getLsbD 8) ∧
    (∀ v t, decode w = .ok (.modeInitCfb v t) ↔ w &&& 0xFFFFFE7F = 0x00000024 ∧ v = w.getLsbD 7 ∧ t = w.getLsbD 8) ∧
    (∀ v t, decode w = .ok (.modeInitOfb v t) ↔ w &&& 0xFFFFFE7F = 0x00000034 ∧ v = w.getLsbD 7 ∧ t = w.getLsbD 8) ∧
    (∀ v t, decode w = .ok (.modeInitCtr v t) ↔ w &&& 0xFFFFFE7F = 0x00000044 ∧ v = w.getLsbD 7 ∧ t = w.getLsbD 8) ∧
    (decode w = .ok .modeEnc ↔ w &&& 0xFFFFFFFF = 0x00000005) ∧
    (decode w = .ok .modeDec ↔ w &&& 0xFFFFFFFF = 0x00000006)) ∧
  (∀ (w : CmdWord) (r r' : Row), r ∈ opcodeRows → r' ∈ opcodeRows → r.accepts w = true → r'.accepts w = true → r = r')

/-- R107, with words of V-DEC-1 written out: one word of each row. -/
def Obligations.SampleWordsDecode : Prop :=
  decode 0x00100001 = .ok (.engineInit 16) ∧ decode 0x00FF0001 = .ok (.engineInit 255) ∧
  decode 0x00000002 = .ok .blockEnc ∧ decode 0x00000003 = .ok .blockDec ∧
  decode 0x00000084 = .ok (.modeInitEcb true false) ∧ decode 0x00000194 = .ok (.modeInitCbc true true) ∧
  decode 0x000000A4 = .ok (.modeInitCfb true false) ∧ decode 0x000000B4 = .ok (.modeInitOfb true false) ∧
  decode 0x00000044 = .ok (.modeInitCtr false false) ∧
  decode 0x00000005 = .ok .modeEnc ∧ decode 0x00000006 = .ok .modeDec ∧
  decode 0x00000000 = .error .reservedOp ∧ decode 0x00000054 = .error .reservedKind ∧
  decode 0x00100101 = .error .nonzeroUnusedField

/-- R109: exactly the words of its three cases are refused, and a refused word raises IllegalCommand, changes no state and
returns an empty OUT, whatever the state and operands. -/
def Obligations.IllegalWordsRaiseIllegalCommand : Prop :=
  (∀ w : CmdWord, (∃ e, decode w = .error e) ↔
    (w.extractLsb' 0 4 = 0x0 ∨ 0x7 ≤ (w.extractLsb' 0 4).toNat) ∨
    (w.extractLsb' 0 4 = 0x4 ∧ 5 ≤ (w.extractLsb' 4 3).toNat) ∨
    (w.extractLsb' 0 4 = 0x1 ∧ (w.extractLsb' 4 12 ≠ 0 ∨ w.extractLsb' 24 8 ≠ 0)) ∨
    ((w.extractLsb' 0 4 = 0x2 ∨ w.extractLsb' 0 4 = 0x3 ∨ w.extractLsb' 0 4 = 0x5 ∨ w.extractLsb' 0 4 = 0x6) ∧
      w.extractLsb' 4 28 ≠ 0) ∨
    (w.extractLsb' 0 4 = 0x4 ∧ w.extractLsb' 9 23 ≠ 0)) ∧
  (∀ (s : State) (r : Request) (rest : List Event) (e : Illegal),
    shapeOk s.cfg.tables = true → s.pending = .request r :: rest → decode r.cmd = .error e →
    ∃ t, step s = .next t ∧ t.regs = s.regs ∧ t.cfg = s.cfg ∧ t.pending = rest ∧ t.response = some ⟨0x05, []⟩)

/-! ### The step, reset and the configuration -/

/-- R17, R100, R108: a step whose request's word decodes runs that instruction on the captured operands. -/
def Obligations.StepRunsTheDecodedInstruction : Prop :=
  (∀ (s : State) (r : Request) (rest : List Event) (i : Instr),
    shapeOk s.cfg.tables = true → s.pending = .request r :: rest → decode r.cmd = .ok i →
    step s = exec i { s with keyIn := r.keyIn, ivIn := r.ivIn, dataIn := r.dataIn, response := none, pending := rest }) ∧
  (∀ (s : State) (w : Nat) (i : Instr),
    shapeOk s.cfg.tables = true → decode (BitVec.ofNat 32 (w % 2 ^ 32)) = .ok i →
    step (s.withFetchWord 32 w) = exec i { s with response := none })

/-- R341, R324: with nothing to do the core waits, holds its registers and gives no response. That such a moment is a
step is the model's own choice (notes/assumptions/2.md). -/
def Obligations.IdleCoreHoldsItsState : Prop :=
  ∀ s : State, shapeOk s.cfg.tables = true → s.pending = [] →
    ∃ t, step s = .next t ∧ t.regs = s.regs ∧ t.cfg = s.cfg ∧ t.pending = [] ∧ t.response = none

/-- R340, R46: a reset, alone or during a command, puts the reset values in place and returns no response. -/
def Obligations.ResetEventClearsTheCore : Prop :=
  ∀ (s : State) (ev : Event) (rest : List Event),
    shapeOk s.cfg.tables = true → s.pending = ev :: rest → ev.isReset = true →
    ∃ t, step s = .next t ∧ t.regs.engineValid = false ∧ t.regs.modeValid = false ∧
      t.regs.key = .unwritten ∧ t.regs.rounds = .unwritten ∧ (∀ i : Fin 32, t.regs.subkey[i] = .unwritten) ∧
      t.regs.modeKind = .unwritten ∧ t.regs.modeStrict = .unwritten ∧ t.regs.iv = .unwritten ∧
      t.response = none ∧ t.pending = rest ∧ t.cfg = s.cfg

/-- R46, R341: the state after reset, in every configuration, and the invariants of R47 in it. -/
def Obligations.ResetStateHoldsResetValues : Prop :=
  ∀ c : Config,
    (State.resetWith c).regs.engineValid = false ∧ (State.resetWith c).regs.modeValid = false ∧
    (State.resetWith c).regs.key = .unwritten ∧ (State.resetWith c).regs.rounds = .unwritten ∧
    (∀ i : Fin 32, (State.resetWith c).regs.subkey[i] = .unwritten) ∧
    (State.resetWith c).regs.modeKind = .unwritten ∧ (State.resetWith c).regs.modeStrict = .unwritten ∧
    (State.resetWith c).regs.iv = .unwritten ∧ (State.resetWith c).response = none ∧
    State.reset = State.resetWith presetConfig ∧ Inv (State.resetWith c)

/-- R47: every command, and every other event, preserves the invariants. -/
def Obligations.EveryStepKeepsTheInvariants : Prop :=
  ∀ s t : State, Inv s → step s = .next t → Inv t

/-- R46, R342, R100: under the invariants no step stops, so no register is read before it is written, and each request
gets one response. That an idle moment is a step, which the first clause covers too, is the model's choice
(notes/assumptions/2.md). -/
def Obligations.EveryRequestIsAnsweredOnce : Prop :=
  ∀ s : State, Inv s → shapeOk s.cfg.tables = true →
    (∃ t, step s = .next t) ∧
    (∀ (r : Request) (rest : List Event), s.pending = .request r :: rest →
      ∃ t rsp, step s = .next t ∧ t.response = some rsp ∧ t.pending = rest)

/-- R188: the shape check holds exactly when the tables have the shapes listed, and a configuration is refused exactly when
it fails the check. That step makes the check, before anything runs, is the model's choice (notes/assumptions/15.md). -/
def Obligations.MalformedTablesAreRefused : Prop :=
  (∀ t : Tables, shapeOk t = true ↔
    (t.e.length = 48 ∧ ∀ n ∈ t.e, 1 ≤ n ∧ n ≤ 32) ∧
    t.p.Perm (List.range' 1 32) ∧
    (t.sboxes.length = 8 ∧
      ∀ box ∈ t.sboxes, box.length = 4 ∧ ∀ row ∈ box, row.length = 16 ∧ ∀ n ∈ row, n < 16) ∧
    (t.pc1.length = 56 ∧ ∀ n ∈ t.pc1, 1 ≤ n ∧ n ≤ 64) ∧
    (t.pc2.length = 48 ∧ ∀ n ∈ t.pc2, 1 ≤ n ∧ n ≤ 56)) ∧
  (∀ s : State, step s = .refused .malformedTables ↔ shapeOk s.cfg.tables = false) ∧
  (∀ (s : State) (why : Refusal), shapeOk s.cfg.tables = true → step s ≠ .refused why)

/-- R44, R10: no command and no reset writes the configuration. -/
def Obligations.ConfigurationNeverChanges : Prop :=
  ∀ s t : State, step s = .next t → t.cfg = s.cfg

/-! ### ENGINE_INIT and the key schedule -/

/-- R148: ENGINE_INIT with a legal count builds the engine, sets ENGINE_VALID, clears MODE_VALID, and answers OK. -/
def Obligations.EngineInitBuildsTheEngine : Prop :=
  ∀ (s : State) (r : Nat), 8 ≤ r → r ≤ 32 →
    ∃ file : Vector (Reg Subkey) 32,
      exec (.engineInit r) s = .next { s with
        regs := { s.regs with
          engineValid := true
          key := .holds (be64 (normKey s.keyIn))
          rounds := .holds (BitVec.ofNat 6 r)
          subkey := file
          modeValid := false }
        response := some ⟨0x00, []⟩ } ∧
      (∀ i : Fin 32, i.val < r → (ks s.cfg.tables (normKey s.keyIn) r)[i.val]?.map Reg.holds = some file[i]) ∧
      (∀ i : Fin 32, r ≤ i.val → file[i] = .unwritten)

/-- R304: ENGINE_INIT raises InvalidRounds exactly for a count outside [8, 32], and does not clamp it. -/
def Obligations.InvalidRoundsIsRejectedNotClamped : Prop :=
  ∀ (s : State) (r : Nat),
    ((r < 8 ∨ 32 < r) → exec (.engineInit r) s = s.answering 0x02 []) ∧
    (∀ t out, exec (.engineInit r) s = .next t → t.response = some ⟨0x02, out⟩ → r < 8 ∨ 32 < r)

/-- R140: NORMKEY keeps the first 8 bytes and appends 0x00 bytes. -/
def Obligations.NormalisedKeyIsTruncatedOrZeroPadded : Prop :=
  (∀ k : Bytes, (normKey k).length = 8 ∧ ∀ j, j < 8 → (normKey k)[j]? = some (k.getD j 0x00)) ∧
  normKey [] = [0, 0, 0, 0, 0, 0, 0, 0] ∧
  normKey [0x41, 0x42, 0x43] = [0x41, 0x42, 0x43, 0, 0, 0, 0, 0] ∧
  normKey [0x4D, 0x59, 0x53, 0x45, 0x43, 0x52, 0x45, 0x54, 0x58, 0x59, 0x5A] =
    [0x4D, 0x59, 0x53, 0x45, 0x43, 0x52, 0x45, 0x54]

/-- R14: DES position k of `PERM(T, v, w)` is input position `t_k`. -/
def Obligations.PermutationPlacesEachPosition : Prop :=
  ∀ (w m : Nat) (table : List Nat) (v : BitVec w), table.length = m → (∀ n ∈ table, 1 ≤ n ∧ n ≤ w) →
    ∀ k n, 1 ≤ k → k ≤ m → table[k - 1]? = some n → (perm m table v).getLsbD (m - k) = v.getLsbD (w - n)

/-- R144, R146: subkey i is PC-2 of C0 and D0 rotated by the sum of the amounts of rounds 0 to i, which repeat with
period 16; and R13: rotating left by a moves bit i − a, modulo 28, to bit i. -/
def Obligations.SubkeyIsCumulativeRotation : Prop :=
  (∀ (t : Tables) (kb : Bytes) (rounds i : Nat), i < rounds →
    let total := ((List.range (i + 1)).map fun j =>
      [1, 1, 2, 2, 2, 2, 2, 2, 1, 2, 2, 2, 2, 2, 2, 1].getD (j % 16) 0).sum % 28
    let pc1 : BitVec 56 := perm 56 t.pc1 (be64 kb)
    (ks t kb rounds).length = rounds ∧
    (ks t kb rounds)[i]? = some (perm 48 t.pc2
      (rol28 (pc1.extractLsb' 28 28) total ++ rol28 (pc1.extractLsb' 0 28) total : BitVec 56))) ∧
  (∀ (x : KeyHalf) (a i : Nat), a ≤ 28 → i < 28 → (rol28 x a).getLsbD i = x.getLsbD ((i + 28 - a) % 28))

/-- R149: the subkeys repeat with period 16, and the count R still matters. -/
def Obligations.SubkeysRepeatWithPeriodSixteen : Prop :=
  (∀ (t : Tables) (kb : Bytes) (rounds i : Nat), i < rounds → rounds ≤ 32 →
    (ks t kb rounds)[i]? = (ks t kb rounds)[i % 16]?) ∧
  cipher presetConfig .enc (ks desStandard (bytes8 0x4D59534543524554) 32) 0x48454C4C4F414C49 ≠
    cipher presetConfig .enc (ks desStandard (bytes8 0x4D59534543524554) 16) 0x48454C4C4F414C49

/-- R150: under DES_STANDARD, keys that differ only in the least significant bit of some bytes give one schedule. -/
def Obligations.ParityBitsOfTheKeyDoNotMatter : Prop :=
  (∀ (k k' : Bytes) (rounds : Nat), k.length = k'.length →
    (∀ j, j < k.length → (k.getD j 0).extractLsb' 1 7 = (k'.getD j 0).extractLsb' 1 7) →
    ks desStandard (normKey k) rounds = ks desStandard (normKey k') rounds) ∧
  ks desStandard (normKey (bytes8 0x4D59534543524554)) 16 = ks desStandard (normKey (bytes8 0x4C58524442534455)) 16

/-! ### The round function and the block primitive -/

/-- R182, R183, R185: nibble j of SUB is S-box j+1 at the row of the group's outer bits and the column of its inner bits. -/
def Obligations.SubstitutionLooksUpEachGroup : Prop :=
  ∀ (t : Tables) (x : BitVec 48) (j : Nat), j < 8 →
    let row := 2 * (x.getLsbD (47 - 6 * j)).toNat + (x.getLsbD (42 - 6 * j)).toNat
    let col := 8 * (x.getLsbD (46 - 6 * j)).toNat + 4 * (x.getLsbD (45 - 6 * j)).toNat +
      2 * (x.getLsbD (44 - 6 * j)).toNat + (x.getLsbD (43 - 6 * j)).toNat
    (sub t x).extractLsb' (28 - 4 * j) 4 =
      BitVec.ofNat 4 (((t.sboxes.getD j []).getD row []).getD col 0)

/-- R189, R190, R191: no round leaves the two halves exchanged; one more round turns the output `R ‖ L` into
`(L ⊕ F(R, k)) ‖ R`. The primitive is these rounds, on the subkeys in reverse order for decryption, between IP and FP of
R191 when IPFP is present and bare when it is absent. -/
def Obligations.EachRoundUpdatesTheHalves : Prop :=
  (∀ (t : Tables) (keys : List Subkey) (k : Subkey) (b : Block),
    feistel t [] b = (b.extractLsb' 0 32 ++ b.extractLsb' 32 32 : BitVec 64) ∧
    feistel t (keys ++ [k]) b =
      (((feistel t keys b).extractLsb' 0 32 ^^^
          perm 32 t.p (sub t (perm 48 t.e ((feistel t keys b).extractLsb' 32 32) ^^^ k))) ++
        (feistel t keys b).extractLsb' 32 32 : BitVec 64)) ∧
  (∀ (c : Config) (keys : List Subkey) (b : Block), c.ipfp = .absent →
    cipher c .enc keys b = feistel c.tables keys b ∧ cipher c .dec keys b = feistel c.tables keys.reverse b) ∧
  (∀ (c : Config) (keys : List Subkey) (b : Block), c.ipfp = .present →
    let ip : Block → Block := perm 64
      [ 58, 50, 42, 34, 26, 18, 10, 2, 60, 52, 44, 36, 28, 20, 12, 4, 62, 54, 46, 38, 30, 22, 14, 6,
        64, 56, 48, 40, 32, 24, 16, 8, 57, 49, 41, 33, 25, 17, 9, 1, 59, 51, 43, 35, 27, 19, 11, 3,
        61, 53, 45, 37, 29, 21, 13, 5, 63, 55, 47, 39, 31, 23, 15, 7 ]
    let fp : Block → Block := perm 64
      [ 40, 8, 48, 16, 56, 24, 64, 32, 39, 7, 47, 15, 55, 23, 63, 31, 38, 6, 46, 14, 54, 22, 62, 30,
        37, 5, 45, 13, 53, 21, 61, 29, 36, 4, 44, 12, 52, 20, 60, 28, 35, 3, 43, 11, 51, 19, 59, 27,
        34, 2, 42, 10, 50, 18, 58, 26, 33, 1, 41, 9, 49, 17, 57, 25 ]
    cipher c .enc keys b = fp (feistel c.tables keys (ip b)) ∧
    cipher c .dec keys b = fp (feistel c.tables keys.reverse (ip b)) ∧ fp (ip b) = b ∧ ip (fp b) = b)

/-- R192, R193, R190: the two block commands, with the frame: nothing but the response changes. R15, R72, R75: the bytes
of an operand and of the result are big-endian, byte 0 in bits 63..56, and block k of a message is its bytes from 8k on. -/
def Obligations.BlockCommandsAnswerTheCipher : Prop :=
  (∀ (s : State) (keys : List Subkey), Inv s → s.regs.engineValid = true → EngineKeys s keys → s.dataIn.length = 8 →
    exec .blockEnc s = s.answering 0x00 (bytes8 (cipher s.cfg .enc keys (be64 s.dataIn))) ∧
    exec .blockDec s = s.answering 0x00 (bytes8 (cipher s.cfg .enc keys.reverse (be64 s.dataIn)))) ∧
  (∀ (b : Bytes) (j : Nat), b.length = 8 → j < 8 → some ((be64 b).extractLsb' (56 - 8 * j) 8) = b[j]?) ∧
  (∀ (v : Block) (j : Nat), (bytes8 v).length = 8 ∧ (j < 8 → (bytes8 v)[j]? = some (v.extractLsb' (56 - 8 * j) 8))) ∧
  (∀ v : Block, be64 (bytes8 v) = v) ∧ (∀ b : Bytes, b.length = 8 → bytes8 (be64 b) = b) ∧
  (∀ (w : Bytes) (k j : Nat), 8 * k + 8 ≤ w.length → j < 8 →
    some ((blockAt w k).extractLsb' (56 - 8 * j) 8) = w[8 * k + j]?)

/-- R303, R308, R313: the errors of the block commands and their order. -/
def Obligations.BlockCommandErrors : Prop :=
  ∀ (s : State) (i : Instr), i = .blockEnc ∨ i = .blockDec →
    (s.regs.engineValid = false → exec i s = s.answering 0x06 []) ∧
    (s.regs.engineValid = true → s.dataIn.length ≠ 8 → exec i s = s.answering 0x01 [])

/-- R194: the two block commands undo each other, for every TABLES, every round count and both settings of IPFP; and so
do the two directions of the primitive, for any number of subkeys. -/
def Obligations.BlockCommandsAreInverse : Prop :=
  (∀ s : State, Inv s → s.regs.engineValid = true → s.dataIn.length = 8 →
    ∃ c p : Bytes,
      exec .blockEnc s = s.answering 0x00 c ∧
      exec .blockDec { s with dataIn := c } = State.answering { s with dataIn := c } 0x00 s.dataIn ∧
      exec .blockDec s = s.answering 0x00 p ∧
      exec .blockEnc { s with dataIn := p } = State.answering { s with dataIn := p } 0x00 s.dataIn) ∧
  (∀ (c : Config) (keys : List Subkey) (b : Block),
    cipher c .dec keys (cipher c .enc keys b) = b ∧ cipher c .enc keys (cipher c .dec keys b) = b)

/-- R195, R151: equal subkeys make the two directions agree; under DES_STANDARD an empty key gives the subkey 0 in every
round. -/
def Obligations.EqualSubkeysMakeDirectionsAgree : Prop :=
  (∀ rounds : Nat, ks desStandard (normKey []) rounds = List.replicate rounds 0) ∧
  (∀ (c : Config) (keys : List Subkey) (b : Block), (∀ k ∈ keys, ∀ k' ∈ keys, k = k') →
    cipher c .enc keys b = cipher c .dec keys b) ∧
  cipher presetConfig .enc (ks desStandard (normKey []) 16) 0 = 0x1C2087FCBBEA0DC2 ∧
  cipher presetConfig .dec (ks desStandard (normKey []) 16) 0 = 0x1C2087FCBBEA0DC2

/-! ### MODE_INIT -/

/-- R235 for ECB, and 92_eei_decisions.md D16: IVP and IV_IN are ignored and IV is not written. -/
def Obligations.ModeInitEcbBinds : Prop :=
  ∀ (s : State) (ivp strict : Bool), s.regs.engineValid = true →
    exec (.modeInitEcb ivp strict) s = .next { s with
      regs := { s.regs with modeKind := .holds .ecb, modeStrict := .holds strict, modeValid := true }
      response := some ⟨0x00, []⟩ }

/-- R235 for CBC, CFB, OFB and CTR: the binding takes the snapshot of IV_IN. -/
def Obligations.ModeInitChainedBinds : Prop :=
  ∀ (s : State) (strict : Bool) (i : Instr) (kind : Kind),
    (i = .modeInitCbc true strict ∧ kind = .cbc ∨ i = .modeInitCfb true strict ∧ kind = .cfb ∨
      i = .modeInitOfb true strict ∧ kind = .ofb ∨ i = .modeInitCtr true strict ∧ kind = .ctr) →
    s.regs.engineValid = true → s.ivIn.length = 8 →
    exec i s = .next { s with
      regs := { s.regs with
        modeKind := .holds kind, modeStrict := .holds strict, modeValid := true, iv := .holds (be64 s.ivIn) }
      response := some ⟨0x00, []⟩ }

/-- R305, R308, R310, R313: the errors of MODE_INIT and their order. -/
def Obligations.ModeInitErrors : Prop :=
  (∀ (s : State) (ivp strict : Bool), s.regs.engineValid = false →
    exec (.modeInitEcb ivp strict) s = s.answering 0x06 []) ∧
  (∀ (s : State) (ivp strict : Bool) (i : Instr),
    (i = .modeInitCbc ivp strict ∨ i = .modeInitCfb ivp strict ∨ i = .modeInitOfb ivp strict ∨
      i = .modeInitCtr ivp strict) →
    (s.regs.engineValid = false → exec i s = s.answering 0x06 []) ∧
    (s.regs.engineValid = true → ivp = false → exec i s = s.answering 0x03 []) ∧
    (s.regs.engineValid = true → ivp = true → s.ivIn.length ≠ 8 → exec i s = s.answering 0x08 []))

/-! ### MODE_ENC -/

/-- R236, R238, R230: MODE_ENC under ECB encrypts each padded block on its own. -/
def Obligations.ModeEncEcb : Prop :=
  ∀ (s : State) (keys : List Subkey), Inv s → s.regs.modeValid = true → EngineKeys s keys →
    s.regs.modeKind = .holds .ecb → s.dataIn.length ≤ s.cfg.maxDataLen →
    ∃ out, exec .modeEnc s = s.answering 0x00 out ∧ out.length = 8 * (s.dataIn.length / 8 + 1) ∧
      ∀ k, k < s.dataIn.length / 8 + 1 →
        blockAt out k = cipher s.cfg .enc keys (blockAt (pad s.dataIn) k)

/-- R236, R240: under CBC each ciphertext block is the encryption of the padded block XOR the ciphertext block before. -/
def Obligations.ModeEncCbc : Prop :=
  ∀ (s : State) (keys : List Subkey) (iv : Block), Inv s → s.regs.modeValid = true → EngineKeys s keys →
    s.regs.modeKind = .holds .cbc → s.regs.iv = .holds iv → s.dataIn.length ≤ s.cfg.maxDataLen →
    ∃ out, exec .modeEnc s = s.answering 0x00 out ∧ out.length = 8 * (s.dataIn.length / 8 + 1) ∧
      ∀ k, k < s.dataIn.length / 8 + 1 →
        blockAt out k = cipher s.cfg .enc keys
          (blockAt (pad s.dataIn) k ^^^ (if k = 0 then iv else blockAt out (k - 1)))

/-- R236, R242: under CFB the keystream block is the encryption of the ciphertext block before. -/
def Obligations.ModeEncCfb : Prop :=
  ∀ (s : State) (keys : List Subkey) (iv : Block), Inv s → s.regs.modeValid = true → EngineKeys s keys →
    s.regs.modeKind = .holds .cfb → s.regs.iv = .holds iv → s.dataIn.length ≤ s.cfg.maxDataLen →
    ∃ out, exec .modeEnc s = s.answering 0x00 out ∧ out.length = 8 * (s.dataIn.length / 8 + 1) ∧
      ∀ k, k < s.dataIn.length / 8 + 1 →
        blockAt out k = blockAt (pad s.dataIn) k ^^^
          cipher s.cfg .enc keys (if k = 0 then iv else blockAt out (k - 1))

/-- R236, R244: under OFB keystream block k is the IV encrypted k + 1 times. -/
def Obligations.ModeEncOfb : Prop :=
  ∀ (s : State) (keys : List Subkey) (iv : Block), Inv s → s.regs.modeValid = true → EngineKeys s keys →
    s.regs.modeKind = .holds .ofb → s.regs.iv = .holds iv → s.dataIn.length ≤ s.cfg.maxDataLen →
    ∃ out, exec .modeEnc s = s.answering 0x00 out ∧ out.length = 8 * (s.dataIn.length / 8 + 1) ∧
      ∀ k, k < s.dataIn.length / 8 + 1 →
        blockAt out k = blockAt (pad s.dataIn) k ^^^ (cipher s.cfg .enc keys)^[k + 1] iv

/-- R236, R245, R252: under CTR keystream block k is the encryption of IV + k, which depends on the seed and k only. -/
def Obligations.ModeEncCtr : Prop :=
  ∀ (s : State) (keys : List Subkey) (iv : Block), Inv s → s.regs.modeValid = true → EngineKeys s keys →
    s.regs.modeKind = .holds .ctr → s.regs.iv = .holds iv → s.dataIn.length ≤ s.cfg.maxDataLen →
    CtrInRange s iv (s.dataIn.length / 8 + 1) →
    ∃ out, exec .modeEnc s = s.answering 0x00 out ∧ out.length = 8 * (s.dataIn.length / 8 + 1) ∧
      ∀ k, k < s.dataIn.length / 8 + 1 →
        blockAt out k = blockAt (pad s.dataIn) k ^^^ cipher s.cfg .enc keys (BitVec.ofNat 64 (iv.toNat + k))

/-- R309, R311, R312, R313: the errors of MODE_ENC and their order; CounterOverflow exactly when the last counter would
reach 2^64 under `CTR_OVERFLOW = fault`. -/
def Obligations.ModeEncErrors : Prop :=
  ∀ s : State,
    (s.regs.modeValid = false → exec .modeEnc s = s.answering 0x07 []) ∧
    (s.regs.modeValid = true → s.cfg.maxDataLen < s.dataIn.length → exec .modeEnc s = s.answering 0x0A []) ∧
    (∀ iv, s.regs.modeValid = true → s.dataIn.length ≤ s.cfg.maxDataLen → s.regs.modeKind = .holds .ctr →
      s.regs.iv = .holds iv →
      (s.cfg.ctrOverflow = .fault ∧ 2 ^ 64 ≤ iv.toNat + s.dataIn.length / 8 ↔
        exec .modeEnc s = s.answering 0x09 []))

/-! ### MODE_DEC -/

/-- R237, R239: MODE_DEC under ECB decrypts each block on its own and unpads. -/
def Obligations.ModeDecEcb : Prop :=
  ∀ (s : State) (keys : List Subkey) (strict : Bool), Inv s → s.regs.modeValid = true → EngineKeys s keys →
    s.regs.modeKind = .holds .ecb → s.regs.modeStrict = .holds strict →
    s.dataIn.length ≤ s.cfg.maxDataLen → s.dataIn.length % 8 = 0 →
    ∃ w : Bytes, w.length = s.dataIn.length ∧
      (∀ k, k < s.dataIn.length / 8 → blockAt w k = cipher s.cfg .dec keys (blockAt s.dataIn k)) ∧
      AnswersUnpadded s strict w

/-- R237, R241: under CBC each plaintext block is the decryption XOR the ciphertext block before. -/
def Obligations.ModeDecCbc : Prop :=
  ∀ (s : State) (keys : List Subkey) (strict : Bool) (iv : Block), Inv s → s.regs.modeValid = true → EngineKeys s keys →
    s.regs.modeKind = .holds .cbc → s.regs.iv = .holds iv → s.regs.modeStrict = .holds strict →
    s.dataIn.length ≤ s.cfg.maxDataLen → s.dataIn.length % 8 = 0 →
    ∃ w : Bytes, w.length = s.dataIn.length ∧
      (∀ k, k < s.dataIn.length / 8 →
        blockAt w k = cipher s.cfg .dec keys (blockAt s.dataIn k) ^^^ (if k = 0 then iv else blockAt s.dataIn (k - 1))) ∧
      AnswersUnpadded s strict w

/-- R237, R243: under CFB the keystream block is the encryption, never the decryption, of the ciphertext block before. -/
def Obligations.ModeDecCfb : Prop :=
  ∀ (s : State) (keys : List Subkey) (strict : Bool) (iv : Block), Inv s → s.regs.modeValid = true → EngineKeys s keys →
    s.regs.modeKind = .holds .cfb → s.regs.iv = .holds iv → s.regs.modeStrict = .holds strict →
    s.dataIn.length ≤ s.cfg.maxDataLen → s.dataIn.length % 8 = 0 →
    ∃ w : Bytes, w.length = s.dataIn.length ∧
      (∀ k, k < s.dataIn.length / 8 →
        blockAt w k = blockAt s.dataIn k ^^^ cipher s.cfg .enc keys (if k = 0 then iv else blockAt s.dataIn (k - 1))) ∧
      AnswersUnpadded s strict w

/-- R237, R244, R245: OFB and CTR decrypt with the keystream that encrypts. -/
def Obligations.ModeDecOfbAndCtr : Prop :=
  ∀ (s : State) (keys : List Subkey) (strict : Bool) (iv : Block), Inv s → s.regs.modeValid = true → EngineKeys s keys →
    (s.regs.modeKind = .holds .ofb ∨ s.regs.modeKind = .holds .ctr ∧ CtrInRange s iv (s.dataIn.length / 8)) →
    s.regs.iv = .holds iv → s.regs.modeStrict = .holds strict →
    s.dataIn.length ≤ s.cfg.maxDataLen → s.dataIn.length % 8 = 0 →
    ∃ w : Bytes, w.length = s.dataIn.length ∧
      (s.regs.modeKind = .holds .ofb → ∀ k, k < s.dataIn.length / 8 →
        blockAt w k = blockAt s.dataIn k ^^^ (cipher s.cfg .enc keys)^[k + 1] iv) ∧
      (s.regs.modeKind = .holds .ctr → ∀ k, k < s.dataIn.length / 8 →
        blockAt w k = blockAt s.dataIn k ^^^ cipher s.cfg .enc keys (BitVec.ofNat 64 (iv.toNat + k))) ∧
      AnswersUnpadded s strict w

/-- R303, R309, R311, R312, R313: the errors of MODE_DEC before any block is processed, and their order. An empty CTR
message never overflows. -/
def Obligations.ModeDecErrors : Prop :=
  ∀ s : State,
    (s.regs.modeValid = false → exec .modeDec s = s.answering 0x07 []) ∧
    (s.regs.modeValid = true → s.cfg.maxDataLen < s.dataIn.length → exec .modeDec s = s.answering 0x0A []) ∧
    (s.regs.modeValid = true → s.dataIn.length ≤ s.cfg.maxDataLen → s.dataIn.length % 8 ≠ 0 →
      exec .modeDec s = s.answering 0x01 []) ∧
    (∀ iv, s.regs.modeValid = true → s.dataIn.length ≤ s.cfg.maxDataLen → s.dataIn.length % 8 = 0 →
      s.regs.modeKind = .holds .ctr → s.regs.iv = .holds iv →
      (s.cfg.ctrOverflow = .fault ∧ 1 ≤ s.dataIn.length / 8 ∧ 2 ^ 64 ≤ iv.toNat + (s.dataIn.length / 8 - 1) ↔
        exec .modeDec s = s.answering 0x09 []))

/-! ### Padding and derived laws -/

/-- R230: PAD appends n bytes each equal to n, n in 1..8, to the next whole number of blocks. -/
def Obligations.PaddingFillsTheLastBlock : Prop :=
  (∀ d : Bytes, ∃ n, 1 ≤ n ∧ n ≤ 8 ∧ (d.length + n) % 8 = 0 ∧ pad d = d ++ List.replicate n (BitVec.ofNat 8 n) ∧
    (pad d).length = 8 * (d.length / 8 + 1) ∧ (pad d).length ≠ d.length) ∧
  pad [] = List.replicate 8 0x08 ∧ pad [0x00] = [0x00, 0x07, 0x07, 0x07, 0x07, 0x07, 0x07, 0x07] ∧
  ∀ d : Bytes, d.length = 7 → pad d = d ++ [0x01]

/-- R231: lenient unpadding looks at the last byte only, and returns the data unchanged where it is no padding count. -/
def Obligations.LenientUnpaddingLooksAtTheLastByte : Prop :=
  unpadLenient [] = [] ∧
  (∀ (w : Bytes) (n : Byte), 1 ≤ n.toNat → n.toNat ≤ 8 → n.toNat ≤ w.length + 1 →
    unpadLenient (w ++ [n]) = w.take (w.length + 1 - n.toNat)) ∧
  (∀ (w : Bytes) (n : Byte), n.toNat = 0 ∨ 8 < n.toNat ∨ w.length + 1 < n.toNat → unpadLenient (w ++ [n]) = w ++ [n]) ∧
  unpadLenient [0, 0, 0, 0, 0, 0, 0x03, 0x03] = [0, 0, 0, 0, 0] ∧
  unpadLenient [0x01, 0x02, 0x03, 0x04, 0x05, 0x06, 0x07, 0x08] = []

/-- R232: on whole blocks strict unpadding succeeds exactly on what PAD makes and then returns its argument, and it agrees
with lenient unpadding wherever it succeeds. -/
def Obligations.StrictUnpaddingInvertsPadding : Prop :=
  (∀ w d : Bytes, w.length % 8 = 0 → (unpadStrict w = some d ↔ w = pad d)) ∧
  (∀ w d : Bytes, unpadStrict w = some d → unpadLenient w = d)

/-- R250: MODE_DEC of what MODE_ENC returns is the message, with STATUS OK under either unpadding policy, every kind, every
TABLES, and both settings of IPFP and CTR_OVERFLOW (a CTR message whose counter overflows under `fault` apart: MODE_ENC
raises CounterOverflow for it). -/
def Obligations.ModeDecryptionUndoesModeEncryption : Prop :=
  ∀ s : State, Inv s → s.regs.modeValid = true → s.dataIn.length + 8 ≤ s.cfg.maxDataLen →
    (∀ iv, s.regs.modeKind = .holds .ctr → s.regs.iv = .holds iv → CtrInRange s iv (s.dataIn.length / 8 + 1)) →
    ∃ c : Bytes, exec .modeEnc s = s.answering 0x00 c ∧
      exec .modeDec { s with dataIn := c } = State.answering { s with dataIn := c } 0x00 s.dataIn

/-- R248: the lengths of successful results. -/
def Obligations.LengthsOfModeResults : Prop :=
  (∀ (s t : State) (out : Bytes), exec .modeEnc s = .next t → t.response = some ⟨0x00, out⟩ →
    out.length = 8 * (s.dataIn.length / 8 + 1)) ∧
  (∀ (s t : State) (out : Bytes), exec .modeDec s = .next t → t.response = some ⟨0x00, out⟩ →
    ∃ n, n ≤ 8 ∧ out.length + n = s.dataIn.length ∧ (s.regs.modeStrict = .holds true → 1 ≤ n))

/-- R251: CFB, OFB and CTR start from one keystream block, so the first 8 bytes of their results agree. -/
def Obligations.FirstKeystreamBlockIsShared : Prop :=
  ∀ (s : State) (iv : Block), Inv s → s.regs.modeValid = true → s.regs.iv = .holds iv →
    s.dataIn.length ≤ s.cfg.maxDataLen → CtrInRange s iv (s.dataIn.length / 8 + 1) →
    ∃ cfb ofb ctr : Bytes,
      exec .modeEnc (s.setKind .cfb) = (s.setKind .cfb).answering 0x00 cfb ∧
      exec .modeEnc (s.setKind .ofb) = (s.setKind .ofb).answering 0x00 ofb ∧
      exec .modeEnc (s.setKind .ctr) = (s.setKind .ctr).answering 0x00 ctr ∧
      cfb.take 8 = ofb.take 8 ∧ ofb.take 8 = ctr.take 8

/-- R246, R76: a data command reissued in the state it left gives the same response and the same state; the IV is not
mutated. -/
def Obligations.ReissuedCommandGivesTheSameResponse : Prop :=
  ∀ (i : Instr) (s t : State), i = .blockEnc ∨ i = .blockDec ∨ i = .modeEnc ∨ i = .modeDec →
    exec i s = .next t → exec i t = .next t

/-! ### Whole-machine rules -/

/-- R300: a command that ends in an error writes no register and returns an empty OUT; nothing but the response changes. -/
def Obligations.ErrorsChangeNothing : Prop :=
  ∀ (i : Instr) (s t : State) (status : BitVec 8) (out : Bytes),
    exec i s = .next t → t.response = some ⟨status, out⟩ → status ≠ 0x00 →
    out = [] ∧ t = { s with response := some ⟨status, []⟩ }

/-- R301: the statuses that each command can end in, and the codes no step returns. -/
def Obligations.EachCommandEndsInItsStatuses : Prop :=
  (∀ (s t : State) (rsp : Response), t.response = some rsp →
    (∀ r, exec (.engineInit r) s = .next t → rsp.status ∈ [0x00, 0x02]) ∧
    (exec .blockEnc s = .next t → rsp.status ∈ [0x00, 0x01, 0x06]) ∧
    (exec .blockDec s = .next t → rsp.status ∈ [0x00, 0x01, 0x06]) ∧
    (∀ v p, exec (.modeInitEcb v p) s = .next t → rsp.status ∈ [0x00, 0x06]) ∧
    (∀ v p, exec (.modeInitCbc v p) s = .next t → rsp.status ∈ [0x00, 0x03, 0x06, 0x08]) ∧
    (∀ v p, exec (.modeInitCfb v p) s = .next t → rsp.status ∈ [0x00, 0x03, 0x06, 0x08]) ∧
    (∀ v p, exec (.modeInitOfb v p) s = .next t → rsp.status ∈ [0x00, 0x03, 0x06, 0x08]) ∧
    (∀ v p, exec (.modeInitCtr v p) s = .next t → rsp.status ∈ [0x00, 0x03, 0x06, 0x08]) ∧
    (exec .modeEnc s = .next t → rsp.status ∈ [0x00, 0x07, 0x09, 0x0A]) ∧
    (exec .modeDec s = .next t → rsp.status ∈ [0x00, 0x01, 0x04, 0x07, 0x09, 0x0A])) ∧
  (∀ (s t : State) (rsp : Response), step s = .next t → t.response = some rsp → rsp.status.toNat ≤ 0x0A)

/-- R36, R40, R43, R76: the frame of the data commands; they write the response and nothing else. -/
def Obligations.DataCommandsWriteNoRegister : Prop :=
  ∀ (i : Instr) (s t : State), i = .blockEnc ∨ i = .blockDec ∨ i = .modeEnc ∨ i = .modeDec →
    exec i s = .next t → t = { s with response := t.response }

/-- R148, R235: the frame of the two initialising commands. ENGINE_INIT leaves MODE_KIND, MODE_STRICT and IV; MODE_INIT
leaves the engine; ECB leaves IV. -/
def Obligations.InitCommandsFrame : Prop :=
  (∀ (r : Nat) (s t : State), exec (.engineInit r) s = .next t →
    t.regs.modeKind = s.regs.modeKind ∧ t.regs.modeStrict = s.regs.modeStrict ∧ t.regs.iv = s.regs.iv ∧
    t = { s with regs := t.regs, response := t.response }) ∧
  (∀ (v p : Bool) (i : Instr) (s t : State),
    i = .modeInitEcb v p ∨ i = .modeInitCbc v p ∨ i = .modeInitCfb v p ∨ i = .modeInitOfb v p ∨ i = .modeInitCtr v p →
    exec i s = .next t →
    t.regs.engineValid = s.regs.engineValid ∧ t.regs.key = s.regs.key ∧ t.regs.rounds = s.regs.rounds ∧
    t.regs.subkey = s.regs.subkey ∧ (i = .modeInitEcb v p → t.regs.iv = s.regs.iv) ∧
    t = { s with regs := t.regs, response := t.response })

/-- R33, R36, R37, R340, R346: KEY, ROUNDS, SUBKEY and ENGINE_VALID change only by a successful ENGINE_INIT or a reset;
only a reset clears ENGINE_VALID; only these two clear MODE_VALID. -/
def Obligations.OnlyEngineInitOrResetChangesTheEngine : Prop :=
  ∀ s t : State, step s = .next t →
    (t.regs.subkey ≠ s.regs.subkey ∨ t.regs.key ≠ s.regs.key ∨ t.regs.rounds ≠ s.regs.rounds ∨
      t.regs.engineValid ≠ s.regs.engineValid ∨ s.regs.modeValid = true ∧ t.regs.modeValid = false →
      (∃ r rest n, s.pending = .request r :: rest ∧ decode r.cmd = .ok (.engineInit n) ∧ 8 ≤ n ∧ n ≤ 32) ∨
      (∃ ev rest, s.pending = ev :: rest ∧ ev.isReset = true)) ∧
    (s.regs.engineValid = true → t.regs.engineValid = false →
      ∃ ev rest, s.pending = ev :: rest ∧ ev.isReset = true)

/-- R46, R36, R38 to R40: a command that comes to read an unwritten register faults, naming it; and from a state with the
invariants no command faults. Which of several unwritten registers is named is the model's choice
(notes/assumptions/1.md). -/
def Obligations.ReadingAnUnwrittenRegisterFaults : Prop :=
  (∀ (s : State) (i : Instr), i = .blockEnc ∨ i = .blockDec → s.regs.engineValid = true → s.dataIn.length = 8 →
    (s.regs.rounds = .unwritten → exec i s = .fault (.readUnwritten .rounds)) ∧
    (∀ j, FirstUnwrittenSubkey s j → exec i s = .fault (.readUnwritten (.subkey j.val)))) ∧
  (∀ (s : State) (i : Instr), i = .modeEnc ∨ i = .modeDec ∧ s.dataIn.length % 8 = 0 → s.regs.modeValid = true →
    s.dataIn.length ≤ s.cfg.maxDataLen →
    (s.regs.modeKind = .unwritten → exec i s = .fault (.readUnwritten .modeKind)) ∧
    (∀ kind, s.regs.modeKind = .holds kind → kind ≠ .ecb → s.regs.iv = .unwritten →
      exec i s = .fault (.readUnwritten .iv)) ∧
    (BindingHeld s → CounterInRange s (if i = .modeEnc then s.dataIn.length / 8 + 1 else s.dataIn.length / 8) →
      (s.regs.rounds = .unwritten → exec i s = .fault (.readUnwritten .rounds)) ∧
      (∀ j, FirstUnwrittenSubkey s j → exec i s = .fault (.readUnwritten (.subkey j.val))) ∧
      (i = .modeDec → EngineHeld s → s.regs.modeStrict = .unwritten →
        exec i s = .fault (.readUnwritten .modeStrict)))) ∧
  (∀ (s : State) (i : Instr) (why : Fault), Inv s → exec i s ≠ .fault why)

/-- R34: no command reads KEY, so its value reaches no response and no other register. -/
def Obligations.KeyRegisterIsNeverRead : Prop :=
  ∀ (i : Instr) (s t : State) (key : Reg Block), exec i s = .next t →
    ∃ t', exec i (s.setKey key) = .next t' ∧ t'.response = t.response ∧
      t'.setKey .unwritten = t.setKey .unwritten

/-- R70, R110: an operand that a command does not read is ignored, whatever its content or length. -/
def Obligations.UnreadOperandsAreIgnored : Prop :=
  ∀ (s t : State) (key iv data : Bytes),
    (∀ i : Instr, i = .blockEnc ∨ i = .blockDec ∨ i = .modeEnc ∨ i = .modeDec → exec i s = .next t →
      exec i { s with keyIn := key, ivIn := iv } = .next { t with keyIn := key, ivIn := iv }) ∧
    (∀ r, exec (.engineInit r) s = .next t →
      exec (.engineInit r) { s with ivIn := iv, dataIn := data } = .next { t with ivIn := iv, dataIn := data }) ∧
    (∀ (v p : Bool) (i : Instr),
      i = .modeInitCbc v p ∨ i = .modeInitCfb v p ∨ i = .modeInitOfb v p ∨ i = .modeInitCtr v p →
      exec i s = .next t →
      exec i { s with keyIn := key, dataIn := data } = .next { t with keyIn := key, dataIn := data }) ∧
    (∀ (v p : Bool) (i : Instr),
      i = .modeInitEcb v p ∨ i = .modeInitCbc false p ∨ i = .modeInitCfb false p ∨ i = .modeInitOfb false p ∨
        i = .modeInitCtr false p →
      exec i s = .next t →
      exec i { s with keyIn := key, ivIn := iv, dataIn := data } =
        .next { t with keyIn := key, ivIn := iv, dataIn := data })

/-- R42: no command reads the last response, nor what the host will do later (R81). -/
def Obligations.ResponsesAndLaterCommandsAreNotRead : Prop :=
  ∀ (i : Instr) (s t : State) (rsp : Option Response) (later : List Event), exec i s = .next t →
    exec i { s with response := rsp, pending := later } = .next { t with pending := later }

/-! ### The assembler -/

/-- R114, R115: the command word and the operands of each form, with the default round count. -/
def Obligations.AssembledWords : Prop :=
  (∀ (key : Bytes) (n : Nat), assemble (.engineInit key (some n)) =
    if n ≤ 255 then some [⟨BitVec.ofNat 32 (0x00000001 + n * 2 ^ 16), key, [], []⟩] else none) ∧
  (∀ key : Bytes, assemble (.engineInit key none) = some [⟨0x00100001, key, [], []⟩]) ∧
  (∀ data : Bytes, assemble (.blockEnc data) = some [⟨0x00000002, [], [], data⟩] ∧
    assemble (.blockDec data) = some [⟨0x00000003, [], [], data⟩] ∧
    assemble (.modeEnc data) = some [⟨0x00000005, [], [], data⟩] ∧
    assemble (.modeDec data) = some [⟨0x00000006, [], [], data⟩]) ∧
  (∀ (iv : Option Bytes) (strict : Bool) (kind : Kind) (n : Nat),
    (kind, n) ∈ [(Kind.ecb, 0), (.cbc, 1), (.cfb, 2), (.ofb, 3), (.ctr, 4)] →
    assemble (.modeInit kind iv strict) =
      some [⟨BitVec.ofNat 32 (0x00000004 + n * 2 ^ 4 + iv.isSome.toNat * 2 ^ 7 + strict.toNat * 2 ^ 8), [],
        iv.getD [], []⟩])

/-- R116: the commands of an expansion run in order; one that fails stops it and its status is the result, and the last
one's response is the result otherwise. For ENCRYPT and DECRYPT: a bad round count, a missing IV, an IV of the wrong
length. That the commands are issued before everything pending is the model's choice (notes/assumptions/16.md). -/
def Obligations.ExpansionStopsAtTheFirstError : Prop :=
  (∀ (r : Request) (rs : List Request) (s t : State), transact r s = .next t →
    (t.responseOk = false → runExpansion (r :: rs) s = .next t) ∧
    (t.responseOk = true → runExpansion (r :: rs) s = runExpansion rs t)) ∧
  (∀ (s : State) (line : AsmLine) (kind : Kind) (key data : Bytes) (iv : Option Bytes) (rounds : Option Nat),
    (line = .encrypt kind key iv rounds data ∨ ∃ strict, line = .decrypt kind key iv rounds strict data) →
    shapeOk s.cfg.tables = true →
    (255 < rounds.getD 16 → assemble line = none) ∧
    (rounds.getD 16 < 8 ∨ 32 < rounds.getD 16 ∧ rounds.getD 16 ≤ 255 →
      ∃ rs t, assemble line = some rs ∧ runExpansion rs s = .next t ∧ t.response = some ⟨0x02, []⟩ ∧ t.regs = s.regs) ∧
    (8 ≤ rounds.getD 16 → rounds.getD 16 ≤ 32 → kind ≠ .ecb → iv = none →
      ∃ rs t, assemble line = some rs ∧ runExpansion rs s = .next t ∧ t.response = some ⟨0x03, []⟩ ∧
        t.regs = s.regs.buildEngine s.cfg.tables (normKey key) (rounds.getD 16)) ∧
    (∀ v, 8 ≤ rounds.getD 16 → rounds.getD 16 ≤ 32 → kind ≠ .ecb → iv = some v → v.length ≠ 8 →
      ∃ rs t, assemble line = some rs ∧ runExpansion rs s = .next t ∧ t.response = some ⟨0x08, []⟩ ∧
        t.regs = s.regs.buildEngine s.cfg.tables (normKey key) (rounds.getD 16)))

/-- R116, R250: DECRYPT of the result of ENCRYPT under the same key, round count, kind and IV is the message, from any two
states of one configuration and under either unpadding policy. That an expansion's commands are issued before everything
pending is the model's choice (notes/assumptions/16.md). -/
def Obligations.DecryptLineUndoesEncryptLine : Prop :=
  ∀ (s u : State) (kind : Kind) (key data : Bytes) (iv : Option Bytes) (rounds : Option Nat),
    shapeOk s.cfg.tables = true → u.cfg = s.cfg →
    8 ≤ rounds.getD 16 → rounds.getD 16 ≤ 32 →
    (kind ≠ .ecb → ∃ v, iv = some v ∧ v.length = 8 ∧ (kind = .ctr → CtrInRange s (be64 v) (data.length / 8 + 1))) →
    data.length + 8 ≤ s.cfg.maxDataLen →
    ∃ (rs : List Request) (t : State) (c : Bytes),
      assemble (.encrypt kind key iv rounds data) = some rs ∧ runExpansion rs s = .next t ∧
      t.response = some ⟨0x00, c⟩ ∧
      ∀ strict : Bool, ∃ (rs' : List Request) (t' : State),
        assemble (.decrypt kind key iv rounds strict c) = some rs' ∧ runExpansion rs' u = .next t' ∧
        t'.response = some ⟨0x00, data⟩

/-! ### What the host observes -/

/-- R45, R340: what the host observes. Machines that agree wherever a valid bit guards a register are one machine to it,
whatever KEY holds and whatever unguarded registers hold; after a reset, alone or during a command, it faces a fresh core;
and an engine's responses are those of the key and the count it was built with. That the view ends where a step stops is
the model's choice (notes/assumptions/17.md). -/
def Obligations.HostSeesOnlyResponses : Prop :=
  (∀ (s u : State) (evs : List Event), SameToTheHost s u → s.hostView evs = u.hostView evs) ∧
  (∀ (s : State) (ev : Event) (evs : List Event), shapeOk s.cfg.tables = true → ev.isReset = true →
    s.hostView (ev :: evs) = none :: (State.resetWith s.cfg).hostView evs) ∧
  (∀ (s : State) (key iv data : Bytes) (n : Nat), shapeOk s.cfg.tables = true → 8 ≤ n → n ≤ 32 → data.length = 8 →
    let keys := ks s.cfg.tables (normKey key) n
    s.hostView [.request ⟨encode (.engineInit n), key, iv, data⟩, .request ⟨0x00000002, key, iv, data⟩,
        .request ⟨0x00000003, key, iv, data⟩] =
      [some ⟨0x00, []⟩, some ⟨0x00, bytes8 (cipher s.cfg .enc keys (be64 data))⟩,
        some ⟨0x00, bytes8 (cipher s.cfg .dec keys (be64 data))⟩])
end

