-- ==== Sys2Proof/Laws/Bits.lean ====
section
/-! SUPPORT. The bits of PERM, and that IP and FP undo each other. -/

namespace Sys2Proof.Machine

theorem natOfBits_append (bits : List Bool) (b : Bool) : natOfBits (bits ++ [b]) = 2 * natOfBits bits + b.toNat := by
  simp [natOfBits]

/-- Binary digit i of the number a bit list spells, counted from its end. -/
theorem natOfBits_testBit (bits : List Bool) (i : Nat) : (natOfBits bits).testBit i = bits.reverse.getD i false := by
  induction bits using List.reverseRecOn generalizing i with
  | nil => simp [natOfBits]
  | append_singleton bits b ih =>
    rw [natOfBits_append, List.reverse_append]
    cases i with
    | zero => cases b <;> simp
    | succ i =>
      have hdiv : (2 * natOfBits bits + b.toNat) / 2 = natOfBits bits := by cases b <;> (simp; try omega)
      rw [Nat.testBit_succ, hdiv, ih]
      simp

/-- Bit i of PERM is the input position that the table's entry i, counted from its end, names. -/
theorem perm_getLsbD {w : Nat} (m : Nat) (table : List Nat) (v : BitVec w) (i : Nat) (hi : i < m) :
    (perm m table v).getLsbD i = (table.reverse.map (desPos v)).getD i false := by
  rw [perm, BitVec.getLsbD_ofNat, natOfBits_testBit, ← List.map_reverse]
  simp [hi]

theorem perm_zero {w : Nat} (m : Nat) (table : List Nat) : perm m table (0 : BitVec w) = 0 := by
  apply BitVec.eq_of_getLsbD_eq
  intro i hi
  rw [perm_getLsbD m table 0 i hi]
  simp only [List.getD_eq_getElem?_getD, List.getElem?_map, BitVec.ofNat_eq_ofNat, BitVec.getLsbD_zero]
  cases table.reverse[i]? <;> simp [desPos]

/-- A permutation of 64 positions followed by another, as one selection. -/
theorem perm_perm (t u : List Nat) (v : Block) (ht : t.length = 64)
    (h : ∀ i : Fin 64, u.reverse.getD i.val 0 ≤ 64 ∧ 1 ≤ u.reverse.getD i.val 0 ∧ u.length = 64 ∧
      64 - t.reverse.getD (64 - u.reverse.getD i.val 0) 0 = i.val) :
    perm 64 u (perm 64 t v) = v := by
  apply BitVec.eq_of_getLsbD_eq
  intro i hi
  obtain ⟨h1, h2, h3, h4⟩ := h ⟨i, hi⟩
  have hu : i < u.reverse.length := by simp [h3, hi]
  rw [perm_getLsbD 64 u _ i hi]
  simp only [List.getD_eq_getElem?_getD, List.getElem?_map, List.getElem?_eq_getElem hu, Option.map_some,
    Option.getD_some, desPos] at *
  have hlt : 64 - u.reverse[i] < t.reverse.length := by simp only [List.length_reverse, ht]; omega
  rw [perm_getLsbD 64 t v _ (by omega)]
  simp only [List.getD_eq_getElem?_getD, List.getElem?_map, List.getElem?_eq_getElem hlt, Option.map_some,
    Option.getD_some, desPos] at *
  rw [h4]

theorem fp_ip (b : Block) : perm 64 fpTable (perm 64 ipTable b) = b := perm_perm ipTable fpTable b rfl (by decide +kernel)

theorem ip_fp (b : Block) : perm 64 ipTable (perm 64 fpTable b) = b := perm_perm fpTable ipTable b rfl (by decide +kernel)

/-! ### The 28-bit rotation -/

/-- Bit i of a rotated half is the bit s places below it, cyclically. -/
theorem rol28_getLsbD (x : KeyHalf) (s : Nat) (hs : s < 28) (i : Nat) (hi : i < 28) :
    (rol28 x s).getLsbD i = x.getLsbD ((i + 28 - s) % 28) := by
  simp only [rol28, BitVec.getLsbD_or, BitVec.getLsbD_shiftLeft, BitVec.getLsbD_ushiftRight]
  by_cases h : i < s
  · have : (i + 28 - s) % 28 = 28 - s + i := by rw [Nat.mod_eq_of_lt (by omega)]; omega
    simp [h, this]
  · have : (i + 28 - s) % 28 = i - s := by rw [show i + 28 - s = (i - s) + 28 by omega, Nat.add_mod_right, Nat.mod_eq_of_lt (by omega)]
    have h2 : x.getLsbD (28 - s + i) = false := BitVec.getLsbD_of_ge _ _ (by omega)
    simp [h, this, hi, h2]

/-- Rotations add up modulo 28. -/
theorem rol28_rol28 (x : KeyHalf) (a b : Nat) (ha : a < 28) (hb : b < 28) :
    rol28 (rol28 x a) b = rol28 x ((a + b) % 28) := by
  apply BitVec.eq_of_getLsbD_eq
  intro i hi
  rw [rol28_getLsbD _ _ hb _ hi, rol28_getLsbD _ _ ha _ (Nat.mod_lt _ (by omega)), rol28_getLsbD _ _ (Nat.mod_lt _ (by omega)) _ hi]
  congr 1
  omega

end Sys2Proof.Machine
end

