-- ==== Sys2Proof/Laws/Bytes.lean ====
section
/-! SUPPORT. Byte strings and blocks: BE64 and BYTES8 are inverse, messages and block lists correspond, and the lengths of
padding and unpadding. -/

namespace Sys2Proof.Machine

@[simp] theorem bytes8_length (v : Block) : (bytes8 v).length = 8 := rfl

theorem be64_bytes8 (v : Block) : be64 (bytes8 v) = v := by
  apply BitVec.eq_of_toNat_eq
  have hv := v.isLt
  simp only [be64, natOfBytes, bytes8, List.foldl, BitVec.toNat_ofNat, BitVec.extractLsb'_toNat, Nat.shiftRight_eq_div_pow]
  omega

theorem bytes8_be64 (b : Bytes) (h : b.length = 8) : bytes8 (be64 b) = b := by
  match b, h with
  | [b0, b1, b2, b3, b4, b5, b6, b7], _ =>
    have h0 := b0.isLt; have h1 := b1.isLt; have h2 := b2.isLt; have h3 := b3.isLt
    have h4 := b4.isLt; have h5 := b5.isLt; have h6 := b6.isLt; have h7 := b7.isLt
    simp only [bytes8, be64, natOfBytes, List.foldl, List.cons.injEq, and_true]
    refine ⟨?_, ?_, ?_, ?_, ?_, ?_, ?_, ?_⟩ <;>
      (apply BitVec.eq_of_toNat_eq
       simp only [BitVec.toNat_ofNat, BitVec.extractLsb'_toNat, Nat.shiftRight_eq_div_pow]
       omega)

@[simp] theorem memRead_whole (b : Bytes) (h : b.length = 8) : memRead b 0 8 = b := by
  simp [memRead, ← h]

@[simp] theorem memRead_bytes8 (v : Block) : memRead (bytes8 v) 0 8 = bytes8 v := memRead_whole _ rfl

theorem memRead_length (b : Bytes) (off n : Nat) (h : off + n ≤ b.length) : (memRead b off n).length = n := by
  simp [memRead]; omega

theorem memRead_append (b c : Bytes) (hb : b.length = 8) (off n : Nat) : memRead (b ++ c) (8 + off) n = memRead c off n := by
  simp [memRead, ← hb]

@[simp] theorem normKey_length (k : Bytes) : (normKey k).length = 8 := by
  unfold normKey; split <;> simp <;> omega

/-! ### Blocks -/

@[simp] theorem unblocks_length (bs : List Block) : (unblocks bs).length = 8 * bs.length := by
  induction bs with
  | nil => rfl
  | cons b bs ih => simp only [unblocks, List.flatMap_cons, List.length_append, List.length_cons, bytes8_length] at *; omega

@[simp] theorem blocks_length (w : Bytes) : (blocks w).length = w.length / 8 := by simp [blocks]

theorem unblocks_cons (b : Block) (bs : List Block) : unblocks (b :: bs) = bytes8 b ++ unblocks bs := rfl

theorem blockAt_append_zero (b : Block) (w : Bytes) : blockAt (bytes8 b ++ w) 0 = b := by
  have h : memRead (bytes8 b ++ w) (8 * 0) 8 = bytes8 b := by simp [memRead, bytes8]
  rw [blockAt, h, be64_bytes8]

theorem blockAt_append_succ (b : Block) (w : Bytes) (k : Nat) : blockAt (bytes8 b ++ w) (k + 1) = blockAt w k := by
  rw [blockAt, blockAt, Nat.mul_add, Nat.add_comm (8 * k), memRead_append _ _ (bytes8_length b)]

/-- Block k of the bytes of a block list is its entry k. -/
theorem blockAt_unblocks (bs : List Block) (k : Nat) (h : k < bs.length) : blockAt (unblocks bs) k = bs[k] := by
  induction bs generalizing k with
  | nil => simp at h
  | cons b bs ih =>
    cases k with
    | zero => exact blockAt_append_zero b _
    | succ k =>
      rw [unblocks_cons, blockAt_append_succ, ih k (by simpa using h)]
      rfl

/-- The same with a default, for statements that look one block back. -/
theorem blockAt_unblocks_getD (bs : List Block) (k : Nat) (h : k < bs.length) :
    blockAt (unblocks bs) k = bs.getD k 0 := by
  rw [blockAt_unblocks bs k h, List.getD_eq_getElem?_getD, List.getElem?_eq_getElem h]; rfl

theorem blocks_getElem (w : Bytes) (k : Nat) (h : k < (blocks w).length) : (blocks w)[k] = blockAt w k := by
  simp [blocks]

theorem blocks_getD (w : Bytes) (k : Nat) (h : k < w.length / 8) : (blocks w).getD k 0 = blockAt w k := by
  rw [List.getD_eq_getElem?_getD, List.getElem?_eq_getElem (by simpa using h), blocks_getElem]; rfl

/-- Splitting the bytes of a block list gives the list back. -/
theorem blocks_unblocks (bs : List Block) : blocks (unblocks bs) = bs := by
  apply List.ext_getElem
  · simp
  · intro k h1 h2
    rw [blocks_getElem, blockAt_unblocks _ _ h2]

/-- Two messages of the same whole number of blocks are equal when all their blocks are. -/
theorem unblocks_blocks (w : Bytes) (h : w.length % 8 = 0) : unblocks (blocks w) = w := by
  obtain ⟨n, hn⟩ : ∃ n, w.length = 8 * n := ⟨w.length / 8, by omega⟩
  induction n generalizing w with
  | zero =>
    have : w = [] := List.length_eq_zero_iff.mp (by omega)
    subst this; rfl
  | succ n ih =>
    have hsplit : w = bytes8 (be64 (w.take 8)) ++ w.drop 8 := by
      rw [bytes8_be64 _ (by simp; omega), List.take_append_drop]
    have hlen : (w.drop 8).length = 8 * n := by simp; omega
    have hblocks : blocks w = be64 (w.take 8) :: blocks (w.drop 8) := by
      have hdiv : w.length / 8 = n + 1 := by omega
      have hdiv' : (w.drop 8).length / 8 = n := by omega
      rw [blocks, hdiv, List.range_succ_eq_map, List.map_cons, List.map_map, blocks, hdiv']
      have hzero : blockAt w 0 = be64 (w.take 8) := by
        conv_lhs => rw [hsplit]
        exact blockAt_append_zero _ _
      have htail : ∀ k, (blockAt w ∘ Nat.succ) k = blockAt (w.drop 8) k := by
        intro k
        show blockAt w (k + 1) = _
        conv_lhs => rw [hsplit]
        exact blockAt_append_succ _ _ k
      rw [hzero, List.map_congr_left (fun k _ => htail k)]
    rw [hblocks, unblocks_cons, ih _ (by omega) hlen, ← hsplit]

/-! ### Padding -/

theorem padCount_pos (d : Bytes) : 1 ≤ padCount d := by unfold padCount; omega

theorem padCount_le (d : Bytes) : padCount d ≤ 8 := by unfold padCount; omega

@[simp] theorem pad_length (d : Bytes) : (pad d).length = 8 * (d.length / 8 + 1) := by
  simp only [pad, List.length_append, List.length_replicate, padCount]; omega

@[simp] theorem padCount_toNat (d : Bytes) : (BitVec.ofNat 8 (padCount d)).toNat = padCount d := by
  have := padCount_le d
  simp; omega

theorem pad_getLast? (d : Bytes) : (pad d).getLast? = some (BitVec.ofNat 8 (padCount d)) := by
  have h := padCount_pos d
  obtain ⟨n, hn⟩ : ∃ n, padCount d = n + 1 := ⟨padCount d - 1, by omega⟩
  rw [pad, hn, List.replicate_succ', ← List.append_assoc]
  simp

theorem pad_take (d : Bytes) : (pad d).take ((pad d).length - padCount d) = d := by
  simp [pad]

theorem pad_drop (d : Bytes) :
    (pad d).drop ((pad d).length - padCount d) = List.replicate (padCount d) (BitVec.ofNat 8 (padCount d)) := by
  simp [pad]

/-- Either unpadding policy gives the padded data back. -/
theorem unpad_pad (strict : Bool) (d : Bytes) : unpad strict (pad d) = some d := by
  have h1 := padCount_pos d
  have h2 := padCount_le d
  have h3 : padCount d ≤ (pad d).length := by simp only [pad, List.length_append, List.length_replicate]; omega
  cases strict with
  | false =>
    simp only [unpad, unpadLenient, pad_getLast?, padCount_toNat, h1, h2, h3, and_self, if_true, pad_take]
    simp
  | true =>
    simp only [unpad, unpadStrict, pad_getLast?, padCount_toNat, h1, h2, h3, pad_take, pad_drop]
    simp

theorem unpadLenient_length (w : Bytes) : ∃ n, n ≤ 8 ∧ (unpadLenient w).length + n = w.length := by
  unfold unpadLenient
  split
  · exact ⟨0, by omega, rfl⟩
  · split
    · rename_i last _ h
      exact ⟨last.toNat, h.2.1, by simp; omega⟩
    · exact ⟨0, by omega, rfl⟩

theorem unpadStrict_length (w d : Bytes) (h : unpadStrict w = some d) :
    ∃ n, 1 ≤ n ∧ n ≤ 8 ∧ d.length + n = w.length := by
  unfold unpadStrict at h
  split at h
  · cases h
  · split at h
    · rename_i last _ hn
      cases h
      exact ⟨last.toNat, hn.1, hn.2.1, by simp; omega⟩
    · cases h

end Sys2Proof.Machine
end

