-- ==== Sys2Proof/Laws/Modes.lean ====
section
/-! SUPPORT. The mode functions: lengths, and that decrypting undoes encrypting when DB undoes EB (42_modes.md R250). -/

namespace Sys2Proof.Machine

variable (eb db : Block → Block)

@[simp] theorem ecbMap_length (ws : List Block) : (ecbMap eb ws).length = ws.length := by simp [ecbMap]

@[simp] theorem cbcEnc_length (chain : Block) (ws : List Block) : (cbcEnc eb chain ws).length = ws.length := by
  induction ws generalizing chain with
  | nil => rfl
  | cons w ws ih => simp [cbcEnc, ih]

@[simp] theorem cbcDec_length (chain : Block) (ws : List Block) : (cbcDec db chain ws).length = ws.length := by
  induction ws generalizing chain with
  | nil => rfl
  | cons w ws ih => simp [cbcDec, ih]

@[simp] theorem cfbEnc_length (chain : Block) (ws : List Block) : (cfbEnc eb chain ws).length = ws.length := by
  induction ws generalizing chain with
  | nil => rfl
  | cons w ws ih => simp [cfbEnc, ih]

@[simp] theorem cfbDec_length (chain : Block) (ws : List Block) : (cfbDec eb chain ws).length = ws.length := by
  induction ws generalizing chain with
  | nil => rfl
  | cons w ws ih => simp [cfbDec, ih]

@[simp] theorem ofbXor_length (chain : Block) (ws : List Block) : (ofbXor eb chain ws).length = ws.length := by
  induction ws generalizing chain with
  | nil => rfl
  | cons w ws ih => simp [ofbXor, ih]

@[simp] theorem ctrXor_length (iv : Block) (blk : Nat) (ws : List Block) : (ctrXor eb iv blk ws).length = ws.length := by
  induction ws generalizing blk with
  | nil => rfl
  | cons w ws ih => simp [ctrXor, ih]

@[simp] theorem encBlocks_length (b : Binding) (ws : List Block) : (encBlocks eb b ws).length = ws.length := by
  cases b <;> simp [encBlocks]

@[simp] theorem decBlocks_length (b : Binding) (ws : List Block) : (decBlocks eb db b ws).length = ws.length := by
  cases b <;> simp [decBlocks]

theorem cbc_undo (h : ∀ b, db (eb b) = b) (chain : Block) (ws : List Block) : cbcDec db chain (cbcEnc eb chain ws) = ws := by
  induction ws generalizing chain with
  | nil => rfl
  | cons w ws ih => simp [cbcEnc, cbcDec, h, ih]

theorem cfb_undo (chain : Block) (ws : List Block) : cfbDec eb chain (cfbEnc eb chain ws) = ws := by
  induction ws generalizing chain with
  | nil => rfl
  | cons w ws ih => simp [cfbEnc, cfbDec, ih]

theorem ofb_undo (chain : Block) (ws : List Block) : ofbXor eb chain (ofbXor eb chain ws) = ws := by
  induction ws generalizing chain with
  | nil => rfl
  | cons w ws ih => simp [ofbXor, ih]

theorem ctr_undo (iv : Block) (blk : Nat) (ws : List Block) : ctrXor eb iv blk (ctrXor eb iv blk ws) = ws := by
  induction ws generalizing blk with
  | nil => rfl
  | cons w ws ih => simp [ctrXor, ih]

/-- Decrypting under a binding undoes encrypting under it. -/
theorem decBlocks_encBlocks (h : ∀ b, db (eb b) = b) (b : Binding) (ws : List Block) :
    decBlocks eb db b (encBlocks eb b ws) = ws := by
  cases b with
  | ecb => simp [encBlocks, decBlocks, ecbMap, Function.comp_def, h]
  | cbc iv => exact cbc_undo eb db h iv ws
  | cfb iv => exact cfb_undo eb iv ws
  | ofb iv => exact ofb_undo eb iv ws
  | ctr iv => exact ctr_undo eb iv 0 ws

/-! ### Each block by its index -/

theorem cbcEnc_getElem (chain : Block) (ws : List Block) (k : Nat) (hk : k < ws.length) :
    (cbcEnc eb chain ws).getD k 0 =
      eb (ws[k] ^^^ (if k = 0 then chain else (cbcEnc eb chain ws).getD (k - 1) 0)) := by
  induction ws generalizing chain k with
  | nil => simp at hk
  | cons w ws ih =>
    cases k with
    | zero => simp [cbcEnc]
    | succ k =>
      have := ih (eb (w ^^^ chain)) k (by simpa using hk)
      cases k <;> simp_all [cbcEnc]

theorem cbcDec_getElem (chain : Block) (ws : List Block) (k : Nat) (hk : k < ws.length) :
    (cbcDec db chain ws).getD k 0 = db ws[k] ^^^ (if k = 0 then chain else ws.getD (k - 1) 0) := by
  induction ws generalizing chain k with
  | nil => simp at hk
  | cons w ws ih =>
    cases k with
    | zero => simp [cbcDec]
    | succ k =>
      have := ih w k (by simpa using hk)
      cases k <;> simp_all [cbcDec]

theorem cfbEnc_getElem (chain : Block) (ws : List Block) (k : Nat) (hk : k < ws.length) :
    (cfbEnc eb chain ws).getD k 0 =
      ws[k] ^^^ eb (if k = 0 then chain else (cfbEnc eb chain ws).getD (k - 1) 0) := by
  induction ws generalizing chain k with
  | nil => simp at hk
  | cons w ws ih =>
    cases k with
    | zero => simp [cfbEnc]
    | succ k =>
      have := ih (w ^^^ eb chain) k (by simpa using hk)
      cases k <;> simp_all [cfbEnc]

theorem cfbDec_getElem (chain : Block) (ws : List Block) (k : Nat) (hk : k < ws.length) :
    (cfbDec eb chain ws).getD k 0 = ws[k] ^^^ eb (if k = 0 then chain else ws.getD (k - 1) 0) := by
  induction ws generalizing chain k with
  | nil => simp at hk
  | cons w ws ih =>
    cases k with
    | zero => simp [cfbDec]
    | succ k =>
      have := ih w k (by simpa using hk)
      cases k <;> simp_all [cfbDec]

theorem ofbXor_getElem (chain : Block) (ws : List Block) (k : Nat) (hk : k < ws.length) :
    (ofbXor eb chain ws).getD k 0 = ws[k] ^^^ eb^[k + 1] chain := by
  induction ws generalizing chain k with
  | nil => simp at hk
  | cons w ws ih =>
    cases k with
    | zero => simp [ofbXor]
    | succ k =>
      have := ih (eb chain) k (by simpa using hk)
      simp_all [ofbXor]

theorem ctrXor_getElem (iv : Block) (blk : Nat) (ws : List Block) (k : Nat) (hk : k < ws.length) :
    (ctrXor eb iv blk ws).getD k 0 = ws[k] ^^^ eb (BitVec.ofNat 64 (iv.toNat + (blk + k))) := by
  induction ws generalizing blk k with
  | nil => simp at hk
  | cons w ws ih =>
    cases k with
    | zero => simp [ctrXor, counterBlock]
    | succ k =>
      have := ih (blk + 1) k (by simpa using hk)
      rw [show blk + (k + 1) = blk + 1 + k by omega]
      simp_all [ctrXor]

end Sys2Proof.Machine
end

