-- ==== Sys2Proof/Laws/RoundEngine.lean ====
section
/-! SUPPORT. The schedule's length, the SUBKEY file's entries, and that a Feistel network run with the subkeys reversed
undoes itself (41_round_engine.md R194). -/

namespace Sys2Proof.Machine

@[simp] theorem scheduleFrom_length (t : Tables) (n i : Nat) (c d : KeyHalf) : (scheduleFrom t n i c d).length = n := by
  induction n generalizing i c d with
  | zero => rfl
  | succ n ih => simp [scheduleFrom, ih]

@[simp] theorem ks_length (t : Tables) (kb : Bytes) (r : Nat) : (ks t kb r).length = r := by simp [ks]

theorem subkeyFile_getElem (schedule : List Subkey) (i : Fin 32) :
    (subkeyFile schedule)[i] = match schedule[i.val]? with | some k => .holds k | none => .unwritten :=
  Vector.getElem_ofFn i.isLt

theorem subkeyFile_holds (schedule : List Subkey) (i : Fin 32) (h : i.val < schedule.length) :
    schedule[i.val]?.map Reg.holds = some (subkeyFile schedule)[i] := by
  rw [subkeyFile_getElem, List.getElem?_eq_getElem h]; rfl

theorem subkeyFile_unwritten (schedule : List Subkey) (i : Fin 32) (h : schedule.length ≤ i.val) :
    (subkeyFile schedule)[i] = .unwritten := by
  rw [subkeyFile_getElem, List.getElem?_eq_none h]

/-- The rounds run backwards: exchanging the halves undoes a run with the subkeys reversed. -/
theorem rounds_reverse (t : Tables) (keys : List Subkey) (lr : Half × Half) :
    (keys.reverse.foldl (round t) (keys.foldl (round t) lr).swap) = lr.swap := by
  induction keys generalizing lr with
  | nil => rfl
  | cons k keys ih =>
    rw [List.foldl_cons, List.reverse_cons, List.foldl_append, ih]
    have h : lr.1 ^^^ roundF t lr.2 k ^^^ roundF t lr.2 k = lr.1 := by rw [BitVec.xor_assoc]; simp
    simp only [List.foldl_cons, List.foldl_nil, round, Prod.swap, h]

/-- A bit of the 64-bit value `r ‖ l`. -/
theorem halves_getLsbD (l r : Half) (i : Nat) :
    (r ++ l : BitVec 64).getLsbD i = if i < 32 then l.getLsbD i else r.getLsbD (i - 32) :=
  (BitVec.getLsbD_append (x := r) (y := l) (i := i)).trans (by by_cases h : i < 32 <;> simp [h])

theorem halves_hi (l r : Half) : (r ++ l : BitVec 64).extractLsb' 32 32 = r := by
  apply BitVec.eq_of_getLsbD_eq
  intro i hi
  rw [BitVec.getLsbD_extractLsb', halves_getLsbD]
  simp [hi]

theorem halves_lo (l r : Half) : (r ++ l : BitVec 64).extractLsb' 0 32 = l := by
  apply BitVec.eq_of_getLsbD_eq
  intro i hi
  rw [BitVec.getLsbD_extractLsb', halves_getLsbD]
  simp [hi]

theorem halves_join (b : Block) : (b.extractLsb' 32 32 ++ b.extractLsb' 0 32 : BitVec 64) = b := by
  apply BitVec.eq_of_getLsbD_eq
  intro i hi
  rw [halves_getLsbD, BitVec.getLsbD_extractLsb', BitVec.getLsbD_extractLsb']
  by_cases h : i < 32
  · simp [h]
  · rw [if_neg h, show 32 + (i - 32) = i by omega]
    simp; omega

/-- Running the network with the subkeys reversed undoes it, for every TABLES and every number of subkeys. -/
theorem feistel_reverse (t : Tables) (keys : List Subkey) (b : Block) :
    feistel t keys.reverse (feistel t keys b) = b := by
  have h := rounds_reverse t keys (b.extractLsb' 32 32, b.extractLsb' 0 32)
  simp only [feistel, halves_hi, halves_lo]
  simp only [Prod.swap] at h
  rw [h]
  exact halves_join b

theorem cipher_dec_enc (c : Config) (keys : List Subkey) (b : Block) : cipher c .dec keys (cipher c .enc keys b) = b := by
  unfold cipher
  cases c.ipfp with
  | absent => exact feistel_reverse c.tables keys b
  | present =>
    simp only [initialPerm, finalPerm, Dir.order, ip_fp]
    rw [feistel_reverse, fp_ip]

theorem cipher_enc_dec (c : Config) (keys : List Subkey) (b : Block) : cipher c .enc keys (cipher c .dec keys b) = b := by
  have h := cipher_dec_enc c keys.reverse b
  simpa only [cipher, Dir.order, List.reverse_reverse] using h

end Sys2Proof.Machine
end

