-- ==== Sys2Proof/Laws/State.lean ====
section
/-! SUPPORT. What each update of the state leaves in each field, true by unfolding; no later proof unfolds a record update. -/

namespace Sys2Proof.Machine

section Respond
variable (st : Status) (out : Bytes) (s : State)
@[simp] theorem respond_cfg : (s.respond st out).cfg = s.cfg := rfl
@[simp] theorem respond_regs : (s.respond st out).regs = s.regs := rfl
@[simp] theorem respond_keyIn : (s.respond st out).keyIn = s.keyIn := rfl
@[simp] theorem respond_ivIn : (s.respond st out).ivIn = s.ivIn := rfl
@[simp] theorem respond_dataIn : (s.respond st out).dataIn = s.dataIn := rfl
@[simp] theorem respond_response : (s.respond st out).response = some ⟨st.code, out⟩ := rfl
@[simp] theorem respond_pending : (s.respond st out).pending = s.pending := rfl
end Respond

section WithRegs
variable (r : Regs) (s : State)
@[simp] theorem withRegs_cfg : (s.withRegs r).cfg = s.cfg := rfl
@[simp] theorem withRegs_regs : (s.withRegs r).regs = r := rfl
@[simp] theorem withRegs_keyIn : (s.withRegs r).keyIn = s.keyIn := rfl
@[simp] theorem withRegs_ivIn : (s.withRegs r).ivIn = s.ivIn := rfl
@[simp] theorem withRegs_dataIn : (s.withRegs r).dataIn = s.dataIn := rfl
@[simp] theorem withRegs_response : (s.withRegs r).response = s.response := rfl
@[simp] theorem withRegs_pending : (s.withRegs r).pending = s.pending := rfl
end WithRegs

section Accept
variable (q : Request) (rest : List Event) (s : State)
@[simp] theorem accept_cfg : (s.accept q rest).cfg = s.cfg := rfl
@[simp] theorem accept_regs : (s.accept q rest).regs = s.regs := rfl
@[simp] theorem accept_keyIn : (s.accept q rest).keyIn = q.keyIn := rfl
@[simp] theorem accept_ivIn : (s.accept q rest).ivIn = q.ivIn := rfl
@[simp] theorem accept_dataIn : (s.accept q rest).dataIn = q.dataIn := rfl
@[simp] theorem accept_response : (s.accept q rest).response = none := rfl
@[simp] theorem accept_pending : (s.accept q rest).pending = rest := rfl
end Accept

section Idle
variable (s : State)
@[simp] theorem idle_cfg : s.idle.cfg = s.cfg := rfl
@[simp] theorem idle_regs : s.idle.regs = s.regs := rfl
@[simp] theorem idle_response : s.idle.response = none := rfl
@[simp] theorem idle_pending : s.idle.pending = s.pending := rfl
end Idle

section TakeReset
variable (rest : List Event) (s : State)
@[simp] theorem takeReset_cfg : (s.takeReset rest).cfg = s.cfg := rfl
@[simp] theorem takeReset_regs : (s.takeReset rest).regs = Regs.reset := rfl
@[simp] theorem takeReset_response : (s.takeReset rest).response = none := rfl
@[simp] theorem takeReset_pending : (s.takeReset rest).pending = rest := rfl
end TakeReset

section Issue
variable (q : Request) (s : State)
@[simp] theorem issue_cfg : (s.issue q).cfg = s.cfg := rfl
@[simp] theorem issue_regs : (s.issue q).regs = s.regs := rfl
@[simp] theorem issue_pending : (s.issue q).pending = .request q :: s.pending := rfl
end Issue

section BuildEngine
variable (t : Tables) (kb : Bytes) (n : Nat) (r : Regs)
@[simp] theorem buildEngine_engineValid : (r.buildEngine t kb n).engineValid = true := rfl
@[simp] theorem buildEngine_key : (r.buildEngine t kb n).key = .holds (be64 kb) := rfl
@[simp] theorem buildEngine_rounds : (r.buildEngine t kb n).rounds = .holds (BitVec.ofNat 6 n) := rfl
@[simp] theorem buildEngine_subkey : (r.buildEngine t kb n).subkey = subkeyFile (ks t kb n) := rfl
@[simp] theorem buildEngine_modeValid : (r.buildEngine t kb n).modeValid = false := rfl
@[simp] theorem buildEngine_modeKind : (r.buildEngine t kb n).modeKind = r.modeKind := rfl
@[simp] theorem buildEngine_modeStrict : (r.buildEngine t kb n).modeStrict = r.modeStrict := rfl
@[simp] theorem buildEngine_iv : (r.buildEngine t kb n).iv = r.iv := rfl
end BuildEngine

section BindMode
variable (kind : Kind) (strict : Bool) (r : Regs)
@[simp] theorem bindMode_engineValid : (r.bindMode kind strict).engineValid = r.engineValid := rfl
@[simp] theorem bindMode_key : (r.bindMode kind strict).key = r.key := rfl
@[simp] theorem bindMode_rounds : (r.bindMode kind strict).rounds = r.rounds := rfl
@[simp] theorem bindMode_subkey : (r.bindMode kind strict).subkey = r.subkey := rfl
@[simp] theorem bindMode_modeValid : (r.bindMode kind strict).modeValid = true := rfl
@[simp] theorem bindMode_modeKind : (r.bindMode kind strict).modeKind = .holds kind := rfl
@[simp] theorem bindMode_modeStrict : (r.bindMode kind strict).modeStrict = .holds strict := rfl
@[simp] theorem bindMode_iv : (r.bindMode kind strict).iv = r.iv := rfl
end BindMode

section SetIv
variable (iv : Block) (r : Regs)
@[simp] theorem setIv_engineValid : (r.setIv iv).engineValid = r.engineValid := rfl
@[simp] theorem setIv_key : (r.setIv iv).key = r.key := rfl
@[simp] theorem setIv_rounds : (r.setIv iv).rounds = r.rounds := rfl
@[simp] theorem setIv_subkey : (r.setIv iv).subkey = r.subkey := rfl
@[simp] theorem setIv_modeValid : (r.setIv iv).modeValid = r.modeValid := rfl
@[simp] theorem setIv_modeKind : (r.setIv iv).modeKind = r.modeKind := rfl
@[simp] theorem setIv_modeStrict : (r.setIv iv).modeStrict = r.modeStrict := rfl
@[simp] theorem setIv_iv : (r.setIv iv).iv = .holds iv := rfl
end SetIv

end Sys2Proof.Machine
end

