-- ==== Sys2Proof/Laws/Ops.lean ====
section
/-! SUPPORT. What the shared operations can do, said once: reads that do not fault, and for each command operation the
answers it has. -/

namespace Sys2Proof.Machine

@[simp] theorem read_holds {α : Type} (name : RegName) (v : α) : (Reg.holds v).read name = .ok v := rfl

@[simp] theorem read_unwritten {α : Type} (name : RegName) :
    (Reg.unwritten : Reg α).read name = .error (.readUnwritten name) := rfl

/-- Reading entries that all hold values gives the values in order. -/
theorem readSubkeys_ok (r : Regs) (is : List Nat) (keys : List Subkey)
    (h : ∀ j (hj : j < is.length), ∃ k, keys[j]? = some k ∧ r.readSubkey is[j] = .ok k) (hlen : keys.length = is.length) :
    r.readSubkeys is = .ok keys := by
  induction is generalizing keys with
  | nil => simp only [List.length_nil, List.length_eq_zero_iff] at hlen; subst hlen; rfl
  | cons i is ih =>
    match keys, hlen with
    | k :: keys, hlen =>
      obtain ⟨k', hk, hr⟩ := h 0 (by simp)
      simp only [List.getElem?_cons_zero, Option.some.injEq] at hk
      subst hk
      have hrest : r.readSubkeys is = .ok keys := by
        apply ih
        · intro j hj
          obtain ⟨k'', hk, hr'⟩ := h (j + 1) (by simpa using hj)
          exact ⟨k'', by simpa using hk, by simpa using hr'⟩
        · simpa using hlen
      simp only [List.getElem_cons_zero] at hr
      simp only [Regs.readSubkeys, hr, hrest]

/-- A built engine reads as its schedule. -/
theorem readEngine_built {t : Tables} {r : Regs} {key : Block} {rounds : BitVec 6} (h : EngineBuilt t r)
    (hkey : r.key = .holds key) (hrounds : r.rounds = .holds rounds) :
    r.readEngine = .ok (ks t (bytes8 key) rounds.toNat) := by
  obtain ⟨key', rounds', hk, hr, _, hle, hsub, _⟩ := h
  rw [hkey] at hk; rw [hrounds] at hr
  cases hk; cases hr
  simp only [Regs.readEngine, hrounds, read_holds]
  apply readSubkeys_ok
  · intro j hj
    simp only [List.length_range] at hj
    have hj32 : j < 32 := by omega
    have hs := hsub ⟨j, hj32⟩ hj
    have hks : j < (ks t (bytes8 key) rounds.toNat).length := by simpa using hj
    rw [List.getElem?_eq_getElem hks] at hs
    refine ⟨_, List.getElem?_eq_getElem hks, ?_⟩
    simp only [Option.map_some, Option.some.injEq] at hs
    simp only [Regs.readSubkey, List.getElem_range, hj32, getElem?_pos]
    have hs' : r.subkey[j] = .holds (ks t (bytes8 key) rounds.toNat)[j] := hs.symm
    rw [hs']; rfl
  · simp

/-- The engine that ENGINE_INIT builds is built. -/
theorem engineBuilt_buildEngine (t : Tables) (kb : Bytes) (n : Nat) (r : Regs) (hkb : kb.length = 8) (h8 : 8 ≤ n)
    (h32 : n ≤ 32) : EngineBuilt t (r.buildEngine t kb n) := by
  have hn : (BitVec.ofNat 6 n).toNat = n := by simp; omega
  refine ⟨be64 kb, BitVec.ofNat 6 n, rfl, rfl, by omega, by omega, ?_, ?_⟩
  · intro i hi
    rw [hn] at hi ⊢
    rw [bytes8_be64 kb hkb, buildEngine_subkey]
    exact subkeyFile_holds _ i (by simpa using hi)
  · intro i hi
    rw [hn] at hi
    rw [buildEngine_subkey]
    exact subkeyFile_unwritten _ i (by simpa using hi)

/-- The engine is built as long as the engine's registers stand. -/
theorem engineBuilt_congr {t : Tables} {r r' : Regs} (h : EngineBuilt t r) (hkey : r'.key = r.key)
    (hrounds : r'.rounds = r.rounds) (hsubkey : r'.subkey = r.subkey) : EngineBuilt t r' := by
  obtain ⟨key, rounds, h1, h2, h3, h4, h5, h6⟩ := h
  exact ⟨key, rounds, hkey ▸ h1, hrounds ▸ h2, h3, h4, hsubkey ▸ h5, hsubkey ▸ h6⟩

/-- A bound mode reads as a binding: ECB, or a chained kind with the IV register's value. -/
theorem readBinding_bound {r : Regs} (h : ModeBound r) : ∃ b, r.readBinding = .ok b := by
  obtain ⟨kind, strict, hk, _, hiv⟩ := h
  simp only [Regs.readBinding, hk, read_holds]
  cases kind with
  | ecb => exact ⟨_, rfl⟩
  | cbc => obtain ⟨iv, h⟩ := hiv (by simp); exact ⟨.cbc iv, by simp [Regs.readBindingOf, h]; rfl⟩
  | cfb => obtain ⟨iv, h⟩ := hiv (by simp); exact ⟨.cfb iv, by simp [Regs.readBindingOf, h]; rfl⟩
  | ofb => obtain ⟨iv, h⟩ := hiv (by simp); exact ⟨.ofb iv, by simp [Regs.readBindingOf, h]; rfl⟩
  | ctr => obtain ⟨iv, h⟩ := hiv (by simp); exact ⟨.ctr iv, by simp [Regs.readBindingOf, h]; rfl⟩

/-- Reading SUBKEY entries looks at the SUBKEY file only. -/
theorem readSubkeys_congr {r r' : Regs} (h : r'.subkey = r.subkey) (is : List Nat) :
    r'.readSubkeys is = r.readSubkeys is := by
  induction is with
  | nil => rfl
  | cons i is ih => simp only [Regs.readSubkeys, Regs.readSubkey, h, ih]

/-- Reading the engine looks at ROUNDS and SUBKEY only. -/
theorem readEngine_congr {r r' : Regs} (hrounds : r'.rounds = r.rounds) (hsubkey : r'.subkey = r.subkey) :
    r'.readEngine = r.readEngine := by
  simp only [Regs.readEngine, hrounds, readSubkeys_congr hsubkey]

/-- Reading the binding looks at MODE_KIND and IV only. -/
theorem readBinding_congr {r r' : Regs} (hkind : r'.modeKind = r.modeKind) (hiv : r'.iv = r.iv) :
    r'.readBinding = r.readBinding := by
  simp only [Regs.readBinding, Regs.readBindingOf, hkind, hiv]

section SetKey
variable (key : Reg Block) (s : State)
@[simp] theorem setKey_cfg : (s.setKey key).cfg = s.cfg := rfl
@[simp] theorem setKey_keyIn : (s.setKey key).keyIn = s.keyIn := rfl
@[simp] theorem setKey_ivIn : (s.setKey key).ivIn = s.ivIn := rfl
@[simp] theorem setKey_dataIn : (s.setKey key).dataIn = s.dataIn := rfl
@[simp] theorem setKey_response : (s.setKey key).response = s.response := rfl
@[simp] theorem setKey_engineValid : (s.setKey key).regs.engineValid = s.regs.engineValid := rfl
@[simp] theorem setKey_modeValid : (s.setKey key).regs.modeValid = s.regs.modeValid := rfl
@[simp] theorem setKey_modeStrict : (s.setKey key).regs.modeStrict = s.regs.modeStrict := rfl
@[simp] theorem setKey_readEngine : (s.setKey key).regs.readEngine = s.regs.readEngine := readEngine_congr rfl rfl
@[simp] theorem setKey_readBinding : (s.setKey key).regs.readBinding = s.regs.readBinding := readBinding_congr rfl rfl
end SetKey

section SetKind
variable (kind : Kind) (s : State)
@[simp] theorem setKind_cfg : (s.setKind kind).cfg = s.cfg := rfl
@[simp] theorem setKind_dataIn : (s.setKind kind).dataIn = s.dataIn := rfl
@[simp] theorem setKind_modeValid : (s.setKind kind).regs.modeValid = s.regs.modeValid := rfl
@[simp] theorem setKind_modeKind : (s.setKind kind).regs.modeKind = .holds kind := rfl
@[simp] theorem setKind_iv : (s.setKind kind).regs.iv = s.regs.iv := rfl
@[simp] theorem setKind_readEngine : (s.setKind kind).regs.readEngine = s.regs.readEngine := readEngine_congr rfl rfl
end SetKind

/-! ### What each command operation answers -/

/-- What BLOCK_ENC and BLOCK_DEC can answer (R192, R193). -/
theorem blockCommand_cases {dir : Dir} {s t : State} (h : blockCommand dir s = .next t) :
    (s.regs.engineValid = false ∧ t = s.respond .noEngine []) ∨
    (s.regs.engineValid = true ∧ s.dataIn.length ≠ 8 ∧ t = s.respond .invalidBlockLength []) ∨
    (s.regs.engineValid = true ∧ s.dataIn.length = 8 ∧ ∃ keys, s.regs.readEngine = .ok keys ∧
      t = s.respond .ok (bytes8 (cipher s.cfg dir keys (be64 (memRead s.dataIn 0 8))))) := by
  unfold blockCommand raise returnOk at h
  split at h
  · exact .inl ⟨‹_›, by cases h; rfl⟩
  · split at h
    · exact .inr (.inl ⟨by simp_all, ‹_›, by cases h; rfl⟩)
    · split at h
      · cases h
      · exact .inr (.inr ⟨by simp_all, by simp_all, _, ‹_›, by cases h; rfl⟩)

/-- What MODE_INIT can answer (R235). -/
theorem modeInit_cases {kind : Kind} {ivp strict : Bool} {s t : State} (h : modeInit kind ivp strict s = .next t) :
    (s.regs.engineValid = false ∧ t = s.respond .noEngine []) ∨
    (s.regs.engineValid = true ∧ kind = .ecb ∧ t = (s.withRegs (s.regs.bindMode kind strict)).respond .ok []) ∨
    (s.regs.engineValid = true ∧ kind ≠ .ecb ∧ ivp = false ∧ t = s.respond .missingIV []) ∨
    (s.regs.engineValid = true ∧ kind ≠ .ecb ∧ ivp = true ∧ s.ivIn.length ≠ 8 ∧ t = s.respond .invalidIVLength []) ∨
    (s.regs.engineValid = true ∧ kind ≠ .ecb ∧ ivp = true ∧ s.ivIn.length = 8 ∧
      t = (s.withRegs ((s.regs.setIv (be64 (memRead s.ivIn 0 8))).bindMode kind strict)).respond .ok []) := by
  unfold modeInit raise returnOk at h
  split at h
  · exact .inl ⟨‹_›, by cases h; rfl⟩
  · split at h
    · exact .inr (.inl ⟨by simp_all, ‹_›, by cases h; rfl⟩)
    · split at h
      · exact .inr (.inr (.inl ⟨by simp_all, ‹_›, ‹_›, by cases h; rfl⟩))
      · split at h
        · exact .inr (.inr (.inr (.inl ⟨by simp_all, ‹_›, by simp_all, ‹_›, by cases h; rfl⟩)))
        · exact .inr (.inr (.inr (.inr ⟨by simp_all, ‹_›, by simp_all, by simp_all, by cases h; rfl⟩)))

/-- What ENGINE_INIT answers (R148). -/
theorem execEngineInit_cases {rounds : Nat} {s t : State} (h : execEngineInit rounds s = .next t) :
    (8 ≤ rounds ∧ rounds ≤ 32 ∧
      t = (s.withRegs (s.regs.buildEngine s.cfg.tables (normKey s.keyIn) rounds)).respond .ok []) ∨
    (¬(8 ≤ rounds ∧ rounds ≤ 32) ∧ t = s.respond .invalidRounds []) := by
  unfold execEngineInit raise returnOk at h
  split at h
  · rename_i hr
    exact .inl ⟨hr.1, hr.2, by cases h; rfl⟩
  · exact .inr ⟨‹_›, by cases h; rfl⟩

/-- What MODE_ENC can answer (R236). -/
theorem execModeEnc_cases {s t : State} (h : execModeEnc s = .next t) :
    (s.regs.modeValid = false ∧ t = s.respond .noMode []) ∨
    (s.regs.modeValid = true ∧ s.cfg.maxDataLen < s.dataIn.length ∧ t = s.respond .dataTooLong []) ∨
    (s.regs.modeValid = true ∧ s.dataIn.length ≤ s.cfg.maxDataLen ∧ ∃ b, s.regs.readBinding = .ok b ∧
      (counterOverflows s.cfg.ctrOverflow (blocks (pad s.dataIn)).length b = true ∧ t = s.respond .counterOverflow [] ∨
       counterOverflows s.cfg.ctrOverflow (blocks (pad s.dataIn)).length b = false ∧
        ∃ keys, s.regs.readEngine = .ok keys ∧
          t = s.respond .ok (unblocks (encBlocks (cipher s.cfg .enc keys) b (blocks (pad s.dataIn)))))) := by
  unfold execModeEnc raise returnOk at h
  split at h
  · exact .inl ⟨‹_›, by cases h; rfl⟩
  · split at h
    · exact .inr (.inl ⟨by simp_all, ‹_›, by cases h; rfl⟩)
    · split at h
      · cases h
      · refine .inr (.inr ⟨by simp_all, by omega, _, ‹_›, ?_⟩)
        dsimp only at h
        split at h
        · exact .inl ⟨‹_›, by cases h; rfl⟩
        · split at h
          · cases h
          · exact .inr ⟨by simp_all, _, ‹_›, by cases h; rfl⟩

/-- What MODE_DEC can answer (R237). -/
theorem execModeDec_cases {s t : State} (h : execModeDec s = .next t) :
    (s.regs.modeValid = false ∧ t = s.respond .noMode []) ∨
    (s.regs.modeValid = true ∧ s.cfg.maxDataLen < s.dataIn.length ∧ t = s.respond .dataTooLong []) ∨
    (s.regs.modeValid = true ∧ s.dataIn.length ≤ s.cfg.maxDataLen ∧ s.dataIn.length % 8 ≠ 0 ∧
      t = s.respond .invalidBlockLength []) ∨
    (s.regs.modeValid = true ∧ s.dataIn.length ≤ s.cfg.maxDataLen ∧ s.dataIn.length % 8 = 0 ∧
      ∃ b, s.regs.readBinding = .ok b ∧
      (counterOverflows s.cfg.ctrOverflow (blocks s.dataIn).length b = true ∧ t = s.respond .counterOverflow [] ∨
       counterOverflows s.cfg.ctrOverflow (blocks s.dataIn).length b = false ∧
        ∃ keys strict, s.regs.readEngine = .ok keys ∧ s.regs.modeStrict = .holds strict ∧
          ((∃ out, unpad strict (unblocks (decBlocks (cipher s.cfg .enc keys) (cipher s.cfg .dec keys) b
              (blocks s.dataIn))) = some out ∧ t = s.respond .ok out) ∨
           (unpad strict (unblocks (decBlocks (cipher s.cfg .enc keys) (cipher s.cfg .dec keys) b
              (blocks s.dataIn))) = none ∧ t = s.respond .invalidPadding [])))) := by
  unfold execModeDec raise returnOk at h
  split at h
  · exact .inl ⟨‹_›, by cases h; rfl⟩
  · split at h
    · exact .inr (.inl ⟨by simp_all, ‹_›, by cases h; rfl⟩)
    · split at h
      · exact .inr (.inr (.inl ⟨by simp_all, by omega, ‹_›, by cases h; rfl⟩))
      · split at h
        · cases h
        · refine .inr (.inr (.inr ⟨by simp_all, by omega, by simp_all, _, ‹_›, ?_⟩))
          dsimp only at h
          split at h
          · exact .inl ⟨‹_›, by cases h; rfl⟩
          · split at h
            · cases h
            · cases h
            · rename_i keys strict hk hs
              have hs' : s.regs.modeStrict = .holds strict := by
                cases hm : s.regs.modeStrict with
                | unwritten => rw [hm] at hs; cases hs
                | holds v => rw [hm] at hs; cases hs; rfl
              refine .inr ⟨by simp_all, keys, strict, hk, hs', ?_⟩
              split at h
              · exact .inl ⟨_, ‹_›, by cases h; rfl⟩
              · exact .inr ⟨‹_›, by cases h; rfl⟩

end Sys2Proof.Machine
end

