-- ==== Sys2Proof/Laws/Commands.lean ====
section
/-! SUPPORT. When the commands complete and with what: each lemma says the answer of one command operation from what its
reads give. -/

namespace Sys2Proof.Machine

/-- The engine that a valid engine slot holds under the invariants. -/
theorem readEngine_of_inv {s : State} {keys : List Subkey} (h : Inv s) (hv : s.regs.engineValid = true)
    (hk : EngineKeys s keys) : s.regs.readEngine = .ok keys := by
  obtain ⟨key, rounds, hkey, hrounds, rfl⟩ := hk
  exact readEngine_built (h.2.1 hv) hkey hrounds

/-- Under the invariants a valid engine slot can be read. -/
theorem readEngine_exists {s : State} (h : Inv s) (hv : s.regs.engineValid = true) :
    ∃ keys, s.regs.readEngine = .ok keys := by
  obtain ⟨key, rounds, hkey, hrounds, _⟩ := h.2.1 hv
  exact ⟨_, readEngine_built (h.2.1 hv) hkey hrounds⟩

/-- The binding of a kind, when the IV register holds a value. -/
theorem readBindingOf_iv {r : Regs} {iv : Block} (h : r.iv = .holds iv) (kind : Kind) :
    r.readBindingOf kind = .ok (match kind with
      | .ecb => .ecb
      | .cbc => .cbc iv
      | .cfb => .cfb iv
      | .ofb => .ofb iv
      | .ctr => .ctr iv) := by
  cases kind <;> simp [Regs.readBindingOf, h] <;> rfl

/-- A CTR binding was read from MODE_KIND and IV. -/
theorem readBinding_ctr {r : Regs} {iv : Block} (h : r.readBinding = .ok (.ctr iv)) :
    r.modeKind = .holds .ctr ∧ r.iv = .holds iv := by
  unfold Regs.readBinding at h
  cases hk : r.modeKind with
  | unwritten => rw [hk] at h; cases h
  | holds kind =>
    rw [hk] at h; simp only [read_holds] at h
    cases hv : r.iv <;> cases kind <;> simp [Regs.readBindingOf, hv, Except.map] at h
    simp [h]

/-- A block command on 8 bytes with an engine that can be read. -/
theorem blockCommand_ok {s : State} {keys : List Subkey} (dir : Dir) (hv : s.regs.engineValid = true)
    (hlen : s.dataIn.length = 8) (hk : s.regs.readEngine = .ok keys) :
    blockCommand dir s = s.answering 0x00 (bytes8 (cipher s.cfg dir keys (be64 s.dataIn))) := by
  simp only [blockCommand, hv, hk, memRead_whole _ hlen]
  rw [if_neg (by simp), if_neg (by simp [hlen])]
  rfl

/-- MODE_ENC with a binding and an engine that can be read, and no counter overflow. -/
theorem execModeEnc_ok {s : State} {b : Binding} {keys : List Subkey} (hv : s.regs.modeValid = true)
    (hlen : s.dataIn.length ≤ s.cfg.maxDataLen) (hb : s.regs.readBinding = .ok b)
    (hk : s.regs.readEngine = .ok keys)
    (hc : counterOverflows s.cfg.ctrOverflow (s.dataIn.length / 8 + 1) b = false) :
    execModeEnc s = s.answering 0x00 (unblocks (encBlocks (cipher s.cfg .enc keys) b (blocks (pad s.dataIn)))) := by
  have hn : (blocks (pad s.dataIn)).length = s.dataIn.length / 8 + 1 := by simp
  simp only [execModeEnc, hv, hb, hk, hn, hc]
  rw [if_neg (by simp), if_neg (by omega)]
  rfl

/-- MODE_DEC with a binding, a policy and an engine that can be read, and no counter overflow. -/
theorem execModeDec_ok {s : State} {b : Binding} {keys : List Subkey} {strict : Bool} (hv : s.regs.modeValid = true)
    (hlen : s.dataIn.length ≤ s.cfg.maxDataLen) (h8 : s.dataIn.length % 8 = 0) (hb : s.regs.readBinding = .ok b)
    (hk : s.regs.readEngine = .ok keys) (hs : s.regs.modeStrict = .holds strict)
    (hc : counterOverflows s.cfg.ctrOverflow (s.dataIn.length / 8) b = false) :
    (∀ out, unpad strict (unblocks (decBlocks (cipher s.cfg .enc keys) (cipher s.cfg .dec keys) b
        (blocks s.dataIn))) = some out →
      execModeDec s = s.answering 0x00 out) ∧
    (unpad strict (unblocks (decBlocks (cipher s.cfg .enc keys) (cipher s.cfg .dec keys) b
        (blocks s.dataIn))) = none →
      execModeDec s = s.answering 0x04 []) := by
  have hn : (blocks s.dataIn).length = s.dataIn.length / 8 := by simp
  constructor
  · intro out ho
    simp only [execModeDec, hv, hb, hk, hn, hc, hs, read_holds, ho, h8]
    rw [if_neg (by simp), if_neg (by omega), if_neg (by simp)]
    rfl
  · intro ho
    simp only [execModeDec, hv, hb, hk, hn, hc, hs, read_holds, ho, h8]
    rw [if_neg (by simp), if_neg (by omega), if_neg (by simp)]
    rfl

end Sys2Proof.Machine
end

