-- ==== Sys2Proof/Laws/PerInstr.lean ====
section
/-! SUPPORT. A statement about every instruction as syntax, one lemma per constructor: the OP field of its word is the
number that 30_encoding.md R102 gives the command. -/

namespace Sys2Proof.Laws.OpField

/-- OP of each command (R102). -/
def number : Instr → Nat
  | .engineInit _ => 0x1
  | .blockEnc => 0x2
  | .blockDec => 0x3
  | .modeInitEcb _ _ => 0x4
  | .modeInitCbc _ _ => 0x4
  | .modeInitCfb _ _ => 0x4
  | .modeInitOfb _ _ => 0x4
  | .modeInitCtr _ _ => 0x4
  | .modeEnc => 0x5
  | .modeDec => 0x6

/-- The word's OP field is the command's number. -/
def Statement (i : Instr) : Prop := opField (encode i) = number i

theorem engineInit (rounds : Nat) : Statement (.engineInit rounds) := by
  have h : (0x00000001 ||| (BitVec.ofNat 32 rounds <<< 16) : CmdWord).extractLsb' 0 4 = 0x1 := by
    apply BitVec.eq_of_getLsbD_eq
    intro i hi
    have hlt : i < 16 := by omega
    simp only [BitVec.getLsbD_extractLsb', BitVec.getLsbD_or, BitVec.getLsbD_shiftLeft, Nat.zero_add, hlt, hi]
    simp
  simp only [Statement, opField, encode, h]
  rfl

theorem blockEnc : Statement .blockEnc := rfl

theorem blockDec : Statement .blockDec := rfl

theorem modeInitEcb (ivp strict : Bool) : Statement (.modeInitEcb ivp strict) := by cases ivp <;> cases strict <;> rfl

theorem modeInitCbc (ivp strict : Bool) : Statement (.modeInitCbc ivp strict) := by cases ivp <;> cases strict <;> rfl

theorem modeInitCfb (ivp strict : Bool) : Statement (.modeInitCfb ivp strict) := by cases ivp <;> cases strict <;> rfl

theorem modeInitOfb (ivp strict : Bool) : Statement (.modeInitOfb ivp strict) := by cases ivp <;> cases strict <;> rfl

theorem modeInitCtr (ivp strict : Bool) : Statement (.modeInitCtr ivp strict) := by cases ivp <;> cases strict <;> rfl

theorem modeEnc : Statement .modeEnc := rfl

theorem modeDec : Statement .modeDec := rfl

end Sys2Proof.Laws.OpField
end

