-- ==== Sys2Proof/Laws/Step.lean ====
section
/-! SUPPORT. What an instruction and a step can do, said once: every proof about all instructions or all steps splits these
cases and unfolds no meaning. -/

namespace Sys2Proof.Machine

/-- Every command only delivers a response, or is a successful ENGINE_INIT, or a successful MODE_INIT. -/
theorem exec_cases {i : Instr} {s t : State} (h : exec i s = .next t) :
    (∃ st out, t = s.respond st out) ∨
    (∃ n, i = .engineInit n ∧ 8 ≤ n ∧ n ≤ 32 ∧
      t = (s.withRegs (s.regs.buildEngine s.cfg.tables (normKey s.keyIn) n)).respond .ok []) ∨
    (∃ ivp strict kind r, s.regs.engineValid = true ∧ i = modeInitInstr kind ivp strict ∧
      (kind = .ecb ∧ r = s.regs ∨ kind ≠ .ecb ∧ ivp = true ∧ s.ivIn.length = 8 ∧
        r = s.regs.setIv (be64 (memRead s.ivIn 0 8))) ∧
      t = (s.withRegs (r.bindMode kind strict)).respond .ok []) := by
  cases i with
  | engineInit n =>
    rcases execEngineInit_cases h with ⟨h1, h2, h⟩ | ⟨_, h⟩
    · exact .inr (.inl ⟨n, rfl, h1, h2, h⟩)
    · exact .inl ⟨_, _, h⟩
  | blockEnc => rcases blockCommand_cases h with ⟨_, h⟩ | ⟨_, _, h⟩ | ⟨_, _, _, _, h⟩ <;> exact .inl ⟨_, _, h⟩
  | blockDec => rcases blockCommand_cases h with ⟨_, h⟩ | ⟨_, _, h⟩ | ⟨_, _, _, _, h⟩ <;> exact .inl ⟨_, _, h⟩
  | modeInitEcb v p =>
    rcases modeInit_cases h with ⟨_, h⟩ | ⟨he, _, h⟩ | ⟨_, hk, _⟩ | ⟨_, hk, _⟩ | ⟨_, hk, _⟩
    · exact .inl ⟨_, _, h⟩
    · exact .inr (.inr ⟨v, p, .ecb, _, he, rfl, .inl ⟨rfl, rfl⟩, h⟩)
    all_goals exact absurd rfl hk
  | modeInitCbc v p =>
    rcases modeInit_cases h with ⟨_, h⟩ | ⟨_, hk, _⟩ | ⟨_, _, _, h⟩ | ⟨_, _, _, _, h⟩ | ⟨he, hk, h1, h2, h⟩
    · exact .inl ⟨_, _, h⟩
    · cases hk
    · exact .inl ⟨_, _, h⟩
    · exact .inl ⟨_, _, h⟩
    · exact .inr (.inr ⟨v, p, .cbc, _, he, rfl, .inr ⟨hk, h1, h2, rfl⟩, h⟩)
  | modeInitCfb v p =>
    rcases modeInit_cases h with ⟨_, h⟩ | ⟨_, hk, _⟩ | ⟨_, _, _, h⟩ | ⟨_, _, _, _, h⟩ | ⟨he, hk, h1, h2, h⟩
    · exact .inl ⟨_, _, h⟩
    · cases hk
    · exact .inl ⟨_, _, h⟩
    · exact .inl ⟨_, _, h⟩
    · exact .inr (.inr ⟨v, p, .cfb, _, he, rfl, .inr ⟨hk, h1, h2, rfl⟩, h⟩)
  | modeInitOfb v p =>
    rcases modeInit_cases h with ⟨_, h⟩ | ⟨_, hk, _⟩ | ⟨_, _, _, h⟩ | ⟨_, _, _, _, h⟩ | ⟨he, hk, h1, h2, h⟩
    · exact .inl ⟨_, _, h⟩
    · cases hk
    · exact .inl ⟨_, _, h⟩
    · exact .inl ⟨_, _, h⟩
    · exact .inr (.inr ⟨v, p, .ofb, _, he, rfl, .inr ⟨hk, h1, h2, rfl⟩, h⟩)
  | modeInitCtr v p =>
    rcases modeInit_cases h with ⟨_, h⟩ | ⟨_, hk, _⟩ | ⟨_, _, _, h⟩ | ⟨_, _, _, _, h⟩ | ⟨he, hk, h1, h2, h⟩
    · exact .inl ⟨_, _, h⟩
    · cases hk
    · exact .inl ⟨_, _, h⟩
    · exact .inl ⟨_, _, h⟩
    · exact .inr (.inr ⟨v, p, .ctr, _, he, rfl, .inr ⟨hk, h1, h2, rfl⟩, h⟩)
  | modeEnc =>
    rcases execModeEnc_cases h with ⟨_, h⟩ | ⟨_, _, h⟩ | ⟨_, _, _, _, ⟨_, h⟩ | ⟨_, _, _, h⟩⟩ <;> exact .inl ⟨_, _, h⟩
  | modeDec =>
    rcases execModeDec_cases h with ⟨_, h⟩ | ⟨_, _, h⟩ | ⟨_, _, _, h⟩ |
      ⟨_, _, _, _, _, ⟨_, h⟩ | ⟨_, _, _, _, _, ⟨_, _, h⟩ | ⟨_, h⟩⟩⟩ <;> exact .inl ⟨_, _, h⟩

/-- A well-shaped machine takes the next event. -/
theorem step_wellShaped {s : State} (hs : shapeOk s.cfg.tables = true) : step s = runEvent exec s := by
  simp [step, stepWith, hs]

/-- A malformed machine is refused. -/
theorem step_malformed {s : State} (hs : shapeOk s.cfg.tables = false) : step s = .refused .malformedTables := by
  simp [step, stepWith, hs]

/-- A step that takes a request runs its word on the captured operands. -/
theorem step_request {s : State} {r : Request} {rest : List Event} (hs : shapeOk s.cfg.tables = true)
    (hp : s.pending = .request r :: rest) : step s = runWord exec r.cmd (s.accept r rest) := by
  simp [step, stepWith, hs, runEvent, hp]

/-- A step that takes a reset, alone or during a command, answers the reset state. -/
theorem step_reset {s : State} {ev : Event} {rest : List Event} (hs : shapeOk s.cfg.tables = true)
    (he : ev.isReset = true) (hp : s.pending = ev :: rest) : step s = .next (s.takeReset rest) := by
  rw [step_wellShaped hs]
  cases ev with
  | request r => cases he
  | reset => simp [runEvent, hp]
  | resetDuring r => simp [runEvent, hp]

/-- Every step waits, takes a reset, runs a decoded instruction, or refuses a word. -/
theorem step_cases {s t : State} (h : step s = .next t) :
    shapeOk s.cfg.tables = true ∧
    ((s.pending = [] ∧ t = s.idle) ∨
     (∃ ev rest, s.pending = ev :: rest ∧ ev.isReset = true ∧ t = s.takeReset rest) ∨
     (∃ r rest, s.pending = .request r :: rest ∧ ((∃ i, decode r.cmd = .ok i ∧ exec i (s.accept r rest) = .next t) ∨
       (∃ e, decode r.cmd = .error e ∧ t = (s.accept r rest).respond .illegalCommand [])))) := by
  unfold step stepWith at h
  split at h
  · refine ⟨‹_›, ?_⟩
    unfold runEvent at h
    split at h
    · exact .inl ⟨‹_›, by cases h; rfl⟩
    · exact .inr (.inl ⟨_, _, ‹_›, rfl, by cases h; rfl⟩)
    · exact .inr (.inl ⟨_, _, ‹_›, rfl, by cases h; rfl⟩)
    · refine .inr (.inr ⟨_, _, ‹_›, ?_⟩)
      unfold runWord at h
      split at h
      · exact .inl ⟨_, ‹_›, h⟩
      · exact .inr ⟨_, ‹_›, by cases h; rfl⟩
  · cases h

/-! ### What the host observes -/

section Facing
variable (ev : Event) (s : State)
@[simp] theorem facing_cfg : (s.facing ev).cfg = s.cfg := rfl
@[simp] theorem facing_regs : (s.facing ev).regs = s.regs := rfl
@[simp] theorem facing_pending : (s.facing ev).pending = [ev] := rfl
end Facing

@[simp] theorem hostView_nil (s : State) : s.hostView [] = [] := rfl

/-- What an event shows the host when the step answers. -/
theorem hostView_next {s t : State} {ev : Event} (evs : List Event) (h : step (s.facing ev) = .next t) :
    s.hostView (ev :: evs) = t.response :: t.hostView evs := by
  simp [State.hostView, h]

end Sys2Proof.Machine
end

