-- ==== Sys2Proof/Tests/Slice0.lean ====
section
/-! SUPPORT. Tests of the model against the words and vectors of the spec, the smoke test of WellFormed, and a witness for
the hypotheses of each statement. Expected values come from spec/95_test_vectors.md (the id stands at each test) or from the
encoding tables of spec/30_encoding.md. -/

namespace Sys2Proof.Tests
open Sys2Proof Sys2Proof.Machine

/-! ### Small states -/

/-- "MYSECRET". -/
def mySecret : Bytes := [0x4D, 0x59, 0x53, 0x45, 0x43, 0x52, 0x45, 0x54]

/-- "HELLOALI". -/
def helloAli : Bytes := [0x48, 0x45, 0x4C, 0x4C, 0x4F, 0x41, 0x4C, 0x49]

/-- The block value of "12345678". -/
def iv12345678 : Block := 0x3132333435363738

/-- The engine of "MYSECRET" with `n` rounds, no mode bound (M8, M16 and M32 of 95_test_vectors.md). -/
def engine (n : Nat) : State := State.reset.withRegs (Regs.reset.buildEngine desStandard mySecret n)

/-- The engine of 16 rounds with a mode bound. -/
def bound (kind : Kind) (strict : Bool) (iv : Block) : State :=
  (engine 16).withRegs (((engine 16).regs.setIv iv).bindMode kind strict)

/-- A state with DATA_IN. -/
def withData (data : Bytes) (s : State) : State := { s with dataIn := data }

/-- A state with IV_IN. -/
def withIvIn (iv : Bytes) (s : State) : State := { s with ivIn := iv }

/-- A state with KEY_IN. -/
def withKeyIn (key : Bytes) (s : State) : State := { s with keyIn := key }

/-- A state with one event of the host pending. -/
def withEvent (ev : Event) (s : State) : State := { s with pending := [ev] }

/-- Whether a command answers with this status and these bytes. -/
def answers (r : Result) (status : BitVec 8) (out : Bytes) : Bool :=
  match r with
  | .next t => t.response == some ⟨status, out⟩
  | .fault _ => false
  | .refused _ => false

/-- Whether a command ends in a state whose registers pass a check. -/
def leaves (r : Result) (check : Regs → Bool) : Bool :=
  match r with
  | .next t => check t.regs
  | .fault _ => false
  | .refused _ => false

theorem engine_inv (n : Nat) (h8 : 8 ≤ n) (h32 : n ≤ 32) : Inv (engine n) :=
  ⟨by simp [engine], fun _ => engineBuilt_buildEngine desStandard mySecret n _ rfl h8 h32, by simp [engine]⟩

theorem bound_inv (kind : Kind) (strict : Bool) (iv : Block) (data : Bytes) : Inv (withData data (bound kind strict iv)) :=
  ⟨fun _ => rfl,
    fun _ => engineBuilt_congr (engineBuilt_buildEngine desStandard mySecret 16 Regs.reset rfl (by decide) (by decide)) rfl rfl rfl,
    fun _ => ⟨kind, strict, rfl, rfl, fun _ => ⟨iv, rfl⟩⟩⟩

/-! ### Decoding and well-formedness: words written bit by bit from R101 to R107 -/

/-- ROUNDS = 16 in bits 23..16, OP = 1. -/
theorem test_decode_engineInit : decode 0b00000000000100000000000000000001 = .ok (.engineInit 16) := by decide
theorem test_decode_engineInit_255 : decode 0b00000000111111110000000000000001 = .ok (.engineInit 255) := by decide
theorem test_decode_blockEnc : decode 0b00000000000000000000000000000010 = .ok .blockEnc := by decide
theorem test_decode_blockDec : decode 0b00000000000000000000000000000011 = .ok .blockDec := by decide
/-- IVP = 1 in bit 7, STRICT = 0 in bit 8. -/
theorem test_decode_modeInitEcb : decode 0b00000000000000000000000010000100 = .ok (.modeInitEcb true false) := by decide
theorem test_decode_modeInitCbc : decode 0b00000000000000000000000110010100 = .ok (.modeInitCbc true true) := by decide
theorem test_decode_modeInitCfb : decode 0b00000000000000000000000010100100 = .ok (.modeInitCfb true false) := by decide
/-- STRICT = 1, IVP = 0. -/
theorem test_decode_modeInitOfb : decode 0b00000000000000000000000100110100 = .ok (.modeInitOfb false true) := by decide
theorem test_decode_modeInitCtr : decode 0b00000000000000000000000001000100 = .ok (.modeInitCtr false false) := by decide
theorem test_decode_modeEnc : decode 0b00000000000000000000000000000101 = .ok .modeEnc := by decide
theorem test_decode_modeDec : decode 0b00000000000000000000000000000110 = .ok .modeDec := by decide
/-- V-DEC-1: the refused words, by the cases of R109. -/
theorem test_decode_illegal :
    [0x00000000, 0x00000007, 0x0000000F].all (fun w => decode w = .error .reservedOp) ∧
    [0x00000054, 0x00000074, 0x000000F4].all (fun w => decode w = .error .reservedKind) ∧
    [0x00100101, 0x01100001, 0x00100011, 0x00000012, 0x00010002, 0x00000204, 0x80000004, 0x80000006].all
      (fun w => decode w = .error .nonzeroUnusedField) := by decide
theorem test_encode_strict_cbc : encode (.modeInitCbc true true) = 0x00000194 := by decide
theorem test_decodeTableWord : decodeTableWord 32 0x00200001 = some (.engineInit 32) := by decide

/-- The smoke test of WellFormed: a count that the 8-bit field cannot carry is refused (R106, R114). -/
theorem test_wf_refuses_rounds_256 : (Instr.engineInit 256).wf = false := by decide
theorem test_wf_admits_rounds_255 : (Instr.engineInit 255).wf = true := by decide

/-! ### Key schedule and round function -/

/-- V-KS-1. -/
theorem test_ks_first_and_last :
    (ks desStandard mySecret 16)[0]? = some 0xB092C233A04C ∧ (ks desStandard mySecret 16)[15]? = some 0xA0922AF48881 := by
  decide +kernel
/-- V-KS-6. -/
theorem test_ks_fips : (ks desStandard (bytes8 0x133457799BBCDFF1) 16)[15]? = some 0xCB3D8B0E17F5 := by decide +kernel
/-- V-RF-1, V-RF-3, V-RF-4 and V-RF-5. -/
theorem test_round_function :
    expand desStandard 0x12345678 = 0x0A41A82AC3F0 ∧ sub desStandard 0x6117BA866527 = 0x5C82B597 ∧
    perm 32 pTable (0x5C82B597 : Half) = 0x234AA9BB ∧ roundF desStandard 0xF0AAF0AA 0x1B02EFFC7072 = 0x234AA9BB := by
  decide +kernel
/-- V-BLK-8: the FIPS answer under IPFP = present. -/
theorem test_ipfp_present :
    cipher { presetConfig with ipfp := .present } .enc (ks desStandard (bytes8 0x133457799BBCDFF1) 16) 0x0123456789ABCDEF
      = 0x85E813540F0AB405 := by decide +kernel
theorem test_des_standard_shape : shapeOk desStandard = true := by decide +kernel
theorem test_shape_refuses_repeated_position : shapeOk { desStandard with p := 7 :: pTable.tail } = false := by decide +kernel

/-! ### Commands -/

/-- R148's worked example; ENGINE_VALID, ROUNDS and the first unwritten entry. -/
theorem test_engineInit :
    leaves (exec (.engineInit 16) (withKeyIn mySecret (bound .cbc true 0))) (fun r =>
      r.engineValid && !r.modeValid && r.key == .holds 0x4D59534543524554 && r.rounds == .holds 16 &&
      r.subkey[15] == .holds 0xA0922AF48881 && r.subkey[16] == .unwritten) = true := by decide +kernel
/-- V-KS-7. -/
theorem test_engineInit_rounds_33 : answers (exec (.engineInit 33) (engine 8)) 0x02 [] = true := by decide +kernel
/-- V-BLK-1. -/
theorem test_blockEnc :
    answers (exec .blockEnc (withData helloAli (engine 16))) 0x00 [0xEE, 0x99, 0x87, 0xF6, 0xDA, 0xE7, 0xCF, 0x79] = true := by
  decide +kernel
/-- V-BLK-10. -/
theorem test_blockEnc_7_bytes : answers (exec .blockEnc (withData (helloAli.take 7) (engine 8))) 0x01 [] = true := by
  decide +kernel
/-- V-BLK-4. -/
theorem test_blockDec :
    answers (exec .blockDec (withData helloAli (engine 8))) 0x00 [0x7A, 0xE2, 0xF8, 0xEC, 0x7C, 0x1C, 0xED, 0x23] = true := by
  decide +kernel
/-- V-BLK-10: NoEngine before the length. -/
theorem test_blockDec_no_engine : answers (exec .blockDec (withData (helloAli.take 7) State.reset)) 0x06 [] = true := by
  decide +kernel
/-- V-MODE-3: the IV operand is ignored, and IV keeps its value (program P1's end state). -/
theorem test_modeInitEcb :
    leaves (exec (.modeInitEcb true false) (withIvIn [0x61, 0x62, 0x63] (bound .cbc true iv12345678))) (fun r =>
      r.modeValid && r.modeKind == .holds .ecb && r.modeStrict == .holds false && r.iv == .holds iv12345678) = true := by
  decide +kernel
/-- R235's worked example. -/
theorem test_modeInitCbc :
    leaves (exec (.modeInitCbc true false) (withIvIn (bytes8 iv12345678) (engine 16))) (fun r =>
      r.modeValid && r.modeKind == .holds .cbc && r.iv == .holds 0x3132333435363738) = true := by decide +kernel
/-- V-MODE-3: an empty IV_IN with IVP = 1 is InvalidIVLength. -/
theorem test_modeInitCbc_empty_iv : answers (exec (.modeInitCbc true false) (engine 16)) 0x08 [] = true := by decide +kernel
/-- R305: IVP = 0 is MissingIV. -/
theorem test_modeInitCfb_missing_iv : answers (exec (.modeInitCfb false false) (engine 16)) 0x03 [] = true := by
  decide +kernel
/-- V-MODE-3: NoEngine from the reset state. -/
theorem test_modeInitOfb_no_engine : answers (exec (.modeInitOfb true false) State.reset) 0x06 [] = true := by decide +kernel
theorem test_modeInitCtr :
    leaves (exec (.modeInitCtr true true) (withIvIn (bytes8 iv12345678) (engine 16))) (fun r =>
      r.modeKind == .holds .ctr && r.modeStrict == .holds true && r.iv == .holds iv12345678) = true := by decide +kernel
/-- V-MODE-1, "HELLOALI" under each mode: one whole padding block is added. -/
theorem test_modeEnc :
    answers (exec .modeEnc (withData helloAli (bound .cbc false iv12345678))) 0x00
      (bytes8 0xA5C58F80F9DFF381 ++ bytes8 0x32DB37291F4945D4) = true ∧
    answers (exec .modeEnc (withData helloAli (bound .cfb false iv12345678))) 0x00
      (bytes8 0x9745AA9992EA203D ++ bytes8 0x6E69B8393E9C3DE9) = true ∧
    answers (exec .modeEnc (withData helloAli (bound .ofb false iv12345678))) 0x00
      (bytes8 0x9745AA9992EA203D ++ bytes8 0x5C70C011920F6F5C) = true ∧
    answers (exec .modeEnc (withData helloAli (bound .ctr false iv12345678))) 0x00
      (bytes8 0x9745AA9992EA203D ++ bytes8 0x5E18C32F2B44BD39) = true := by decide +kernel
/-- V-MODE-5: the counter limits. -/
theorem test_modeEnc_ctr_limits :
    answers (exec .modeEnc (withData [] (bound .ctr false 0xFFFFFFFFFFFFFFFF))) 0x00 (bytes8 0x4A0C611F0B4FA614) = true ∧
    answers (exec .modeEnc (withData (List.replicate 8 0x41) (bound .ctr false 0xFFFFFFFFFFFFFFFF))) 0x09 [] = true := by
  decide +kernel
/-- V-MODE-6: strict and lenient on a truncated ciphertext. -/
theorem test_modeDec :
    answers (exec .modeDec (withData (bytes8 0xA5C58F80F9DFF381) (bound .cbc true iv12345678))) 0x04 [] = true ∧
    answers (exec .modeDec (withData (bytes8 0xA5C58F80F9DFF381) (bound .cbc false iv12345678))) 0x00 helloAli = true := by
  decide +kernel
/-- V-SRC-8: the padding block alone is the empty message. -/
theorem test_modeDec_padding_block :
    answers (exec .modeDec (withData (bytes8 0x19E87965C07D0767) (bound .ecb true 0))) 0x00 [] = true := by decide +kernel
/-- V-MODE-7, with MAX_DATA_LEN = 16: DataTooLong before the length check. -/
theorem test_modeDec_too_long :
    answers (exec .modeDec { withData (List.replicate 17 0) (bound .ecb false 0) with
      cfg := { presetConfig with maxDataLen := 16 } }) 0x0A [] = true := by decide +kernel

/-! ### Steps and the assembler -/

/-- V-MODE-8: IllegalCommand before NoEngine, as the first command after reset. -/
theorem test_step_illegal : answers (step (State.reset.withFetchWord 32 0x00000054)) 0x05 [] = true := by decide +kernel
/-- V-MODE-8: MODE_ENC from reset is NoMode. -/
theorem test_step_modeEnc_from_reset : answers (step (State.reset.withFetchWord 32 0x00000005)) 0x07 [] = true := by
  decide +kernel
/-- R340: a reset during a command clears the engine and returns no response. -/
theorem test_step_reset_during :
    (match step (withEvent (.resetDuring ⟨0x00000002, [], [], helloAli⟩) (engine 16)) with
      | .next t => t.response == none && t.regs == Regs.reset
      | .fault _ => false
      | .refused _ => false) = true := by decide +kernel
/-- V-BLK-1 and V-MODE-8 as the host sees them: an engine, a block, a reset, a command without a mode. -/
theorem test_hostView :
    State.reset.hostView [.request ⟨0x00100001, mySecret, [], []⟩, .request ⟨0x00000002, [], [], helloAli⟩, .reset,
        .request ⟨0x00000005, [], [], helloAli⟩] =
      [some ⟨0x00, []⟩, some ⟨0x00, [0xEE, 0x99, 0x87, 0xF6, 0xDA, 0xE7, 0xCF, 0x79]⟩, none, some ⟨0x07, []⟩] := by
  decide +kernel
/-- R112 to R114: quotes, an escape, operands in any order, a comment. -/
theorem test_parse_modeInit :
    parseLine "MODE_INIT  iv=\"1234567\\x38\" strict kind=CBC ; bind".toList =
      .line (.modeInit .cbc (some [0x31, 0x32, 0x33, 0x34, 0x35, 0x36, 0x37, 0x38]) true) := by decide +kernel
/-- R113, R115: hexadecimal bytes and the default round count. -/
theorem test_assemble_engineInit :
    assembleText "ENGINE_INIT key=0x4142".toList = some [⟨0x00100001, [0x41, 0x42], [], []⟩] := by decide +kernel
/-- R114: a count above 255 is refused by the assembler. -/
theorem test_assemble_refuses_rounds_256 : assembleText "ENGINE_INIT key=\"\" rounds=256".toList = none := by decide +kernel

/-! ### Witnesses: for each statement with hypotheses, a state and operands that meet all of them -/

theorem witness_EncodedInstructionDecodesToItself :
    (Instr.engineInit 255).wf = true ∧ (Instr.engineInit 0).wf = true ∧ (Instr.modeInitCtr true true).wf = true := by decide

theorem witness_DecodedWordIsTheEncodingOfItsInstruction : decode 0x000001C4 = .ok (.modeInitCtr true true) := by decide

theorem witness_DecoderFollowsMaskAndMatch :
    ∃ r ∈ opcodeRows, r.accepts 0x00000184 = true := ⟨⟨.modeInit .ecb, 0x4, 0xFFFFFE7F⟩, by decide, by decide⟩

theorem witness_IllegalWordsRaiseIllegalCommand :
    ∃ (s : State) (r : Request) (rest : List Event) (e : Illegal),
      shapeOk s.cfg.tables = true ∧ s.pending = .request r :: rest ∧ decode r.cmd = .error e :=
  ⟨withEvent (.request ⟨0x00000007, [], [], []⟩) State.reset, _, _, .reservedOp, test_des_standard_shape, rfl, by decide⟩

theorem witness_StepRunsTheDecodedInstruction :
    ∃ (s : State) (r : Request) (rest : List Event) (i : Instr),
      shapeOk s.cfg.tables = true ∧ s.pending = .request r :: rest ∧ decode r.cmd = .ok i ∧
      decode (BitVec.ofNat 32 (0x00000006 % 2 ^ 32)) = .ok .modeDec :=
  ⟨withEvent (.request ⟨0x00000002, [], [], helloAli⟩) (engine 16), _, _, .blockEnc, test_des_standard_shape, rfl,
    by decide, by decide⟩

theorem witness_IdleCoreHoldsItsState : ∃ s : State, shapeOk s.cfg.tables = true ∧ s.pending = [] :=
  ⟨engine 16, test_des_standard_shape, rfl⟩

theorem witness_ResetEventClearsTheCore :
    ∃ (s : State) (rest : List Event), shapeOk s.cfg.tables = true ∧
      (s.pending = .reset :: rest ∧ Event.reset.isReset = true) ∧ s.regs.engineValid = true :=
  ⟨withEvent .reset (engine 16), [], test_des_standard_shape, ⟨rfl, rfl⟩, rfl⟩

theorem witness_ResetEventDuringACommand :
    ∃ (s : State) (r : Request) (rest : List Event), shapeOk s.cfg.tables = true ∧
      s.pending = .resetDuring r :: rest ∧ (Event.resetDuring r).isReset = true :=
  ⟨withEvent (.resetDuring ⟨0x00000005, [], [], helloAli⟩) (engine 16), _, _, test_des_standard_shape, rfl, rfl⟩

/-- One step of a bound state that answers: it meets the hypotheses of every statement about all steps. -/
theorem witness_EveryStepKeepsTheInvariants :
    ∃ s t : State, Inv s ∧ step s = .next t ∧ s.regs.modeValid = true :=
  ⟨withData helloAli (bound .ofb true 1), _, bound_inv _ _ _ _,
    by simp [step, stepWith, runEvent, withData, bound, engine, State.reset, State.resetWith, presetConfig,
      test_des_standard_shape]; rfl, rfl⟩

theorem witness_EveryRequestIsAnsweredOnce :
    ∃ (s : State) (r : Request) (rest : List Event), Inv s ∧ shapeOk s.cfg.tables = true ∧
      s.pending = .request r :: rest :=
  ⟨withEvent (.request ⟨0x00000006, [], [], helloAli⟩) (bound .ctr false 0), _, _, bound_inv .ctr false 0 [],
    test_des_standard_shape, rfl⟩

theorem witness_MalformedTablesAreRefused :
    (∃ s : State, shapeOk s.cfg.tables = false) ∧ (∃ s : State, shapeOk s.cfg.tables = true) :=
  ⟨⟨State.resetWith { presetConfig with tables := { desStandard with p := 7 :: pTable.tail } },
    test_shape_refuses_repeated_position⟩, State.reset, test_des_standard_shape⟩

theorem witness_ConfigurationNeverChanges : ∃ s t : State, step s = .next t :=
  let ⟨s, t, h⟩ := witness_EveryStepKeepsTheInvariants
  ⟨s, t, h.2.1⟩

/-- The two ends of the legal range of the round count, and the counts just outside it. -/
theorem witness_EngineInitBuildsTheEngine : (8 ≤ 8 ∧ 8 ≤ 32) ∧ (8 ≤ 32 ∧ 32 ≤ 32) := by decide

theorem witness_InvalidRoundsIsRejectedNotClamped :
    ((7 : Nat) < 8 ∨ 32 < 7) ∧ ((33 : Nat) < 8 ∨ 32 < 33) ∧
    (∃ t : State, exec (.engineInit 33) (engine 8) = .next t ∧ t.response = some ⟨0x02, []⟩) :=
  ⟨by decide, by decide, _, rfl, rfl⟩

theorem witness_NormalisedKeyIsTruncatedOrZeroPadded : (0 : Nat) < 8 ∧ (7 : Nat) < 8 := by decide

theorem witness_PermutationPlacesEachPosition :
    pTable.length = 32 ∧ (∀ n ∈ pTable, 1 ≤ n ∧ n ≤ 32) ∧ pTable[1 - 1]? = some 16 ∧ pTable[32 - 1]? = some 25 := by decide

theorem witness_SubkeyIsCumulativeRotation : (31 : Nat) < 32 ∧ (0 : Nat) < 8 ∧ (28 : Nat) ≤ 28 ∧ (27 : Nat) < 28 := by decide

theorem witness_SubkeysRepeatWithPeriodSixteen : (16 : Nat) < 32 ∧ 32 ≤ 32 := by decide

theorem witness_ParityBitsOfTheKeyDoNotMatter :
    ∃ k k' : Bytes, k.length = k'.length ∧
      (∀ j, j < k.length → (k.getD j 0).extractLsb' 1 7 = (k'.getD j 0).extractLsb' 1 7) ∧ k ≠ k' :=
  ⟨mySecret, bytes8 0x4C58524442534455, rfl, by decide, by decide⟩

theorem witness_SubstitutionLooksUpEachGroup : (0 : Nat) < 8 ∧ (7 : Nat) < 8 := by decide

theorem witness_BlockCommandsAnswerTheCipher :
    ∃ (s : State) (keys : List Subkey), Inv s ∧ s.regs.engineValid = true ∧ EngineKeys s keys ∧ s.dataIn.length = 8 :=
  ⟨withData helloAli (engine 16), _, engine_inv 16 (by decide) (by decide), rfl, ⟨_, _, rfl, rfl, rfl⟩, rfl⟩

/-- The byte clauses at their bounds: the last byte of a block and of the last block of a message. -/
theorem witness_BlockBytes :
    helloAli.length = 8 ∧ (7 : Nat) < 8 ∧ 8 * 1 + 8 ≤ (helloAli ++ helloAli).length ∧ (helloAli ++ helloAli)[8 * 1 + 7]? = some 0x49 := by
  decide

/-- Both settings of IPFP. -/
theorem witness_EachRoundUpdatesTheHalves :
    presetConfig.ipfp = .absent ∧ (∃ c : Config, c.ipfp = .present) := ⟨rfl, { presetConfig with ipfp := .present }, rfl⟩

theorem witness_BlockCommandErrors :
    (∃ s : State, s.regs.engineValid = false) ∧
    (∃ s : State, s.regs.engineValid = true ∧ s.dataIn.length ≠ 8 ∧ s.dataIn.length = 7) ∧
    (∃ s : State, s.regs.engineValid = true ∧ s.dataIn.length ≠ 8 ∧ s.dataIn.length = 9) :=
  ⟨⟨State.reset, rfl⟩, ⟨withData (helloAli.take 7) (engine 16), rfl, by decide, rfl⟩,
    ⟨withData (helloAli ++ [0]) (engine 16), rfl, by decide, rfl⟩⟩

theorem witness_BlockCommandsAreInverse : ∃ s : State, Inv s ∧ s.regs.engineValid = true ∧ s.dataIn.length = 8 :=
  ⟨withData helloAli (engine 32), engine_inv 32 (by decide) (by decide), rfl, rfl⟩

theorem witness_EqualSubkeysMakeDirectionsAgree :
    ∀ k ∈ List.replicate 16 (5 : Subkey), ∀ k' ∈ List.replicate 16 (5 : Subkey), k = k' :=
  fun _ hk _ hk' => (List.eq_of_mem_replicate hk).trans (List.eq_of_mem_replicate hk').symm

theorem witness_ModeInitEcbBinds : ∃ s : State, s.regs.engineValid = true := ⟨engine 16, rfl⟩

theorem witness_ModeInitChainedBinds : ∃ s : State, s.regs.engineValid = true ∧ s.ivIn.length = 8 :=
  ⟨withIvIn (bytes8 iv12345678) (engine 16), rfl, rfl⟩

theorem witness_ModeInitErrors :
    (∃ s : State, s.regs.engineValid = false) ∧
    (∃ s : State, s.regs.engineValid = true ∧ s.ivIn.length ≠ 8 ∧ s.ivIn.length = 7) ∧
    (∃ s : State, s.regs.engineValid = true ∧ s.ivIn.length ≠ 8 ∧ s.ivIn.length = 9) :=
  ⟨⟨State.reset, rfl⟩, ⟨withIvIn (helloAli.take 7) (engine 16), rfl, by decide, rfl⟩,
    ⟨withIvIn (helloAli ++ [0]) (engine 16), rfl, by decide, rfl⟩⟩

/-- The hypotheses of the statements on MODE_ENC under ECB. -/
theorem witness_ModeEncEcb :
    ∃ (s : State) (keys : List Subkey), Inv s ∧ s.regs.modeValid = true ∧ EngineKeys s keys ∧
      s.regs.modeKind = .holds .ecb ∧ s.dataIn.length ≤ s.cfg.maxDataLen :=
  ⟨withData helloAli (bound .ecb false 0), _, bound_inv _ _ _ _, rfl, ⟨_, _, rfl, rfl, rfl⟩, rfl, by decide⟩

theorem witness_ModeEncCbc :
    ∃ (s : State) (keys : List Subkey) (iv : Block), Inv s ∧ s.regs.modeValid = true ∧ EngineKeys s keys ∧
      s.regs.modeKind = .holds .cbc ∧ s.regs.iv = .holds iv ∧ s.dataIn.length ≤ s.cfg.maxDataLen :=
  ⟨withData helloAli (bound .cbc false 1), _, 1, bound_inv _ _ _ _, rfl, ⟨_, _, rfl, rfl, rfl⟩, rfl, rfl, by decide⟩

theorem witness_ModeEncCfb :
    ∃ (s : State) (keys : List Subkey) (iv : Block), Inv s ∧ s.regs.modeValid = true ∧ EngineKeys s keys ∧
      s.regs.modeKind = .holds .cfb ∧ s.regs.iv = .holds iv ∧ s.dataIn.length ≤ s.cfg.maxDataLen :=
  ⟨withData [] (bound .cfb false 1), _, 1, bound_inv _ _ _ _, rfl, ⟨_, _, rfl, rfl, rfl⟩, rfl, rfl, by decide⟩

theorem witness_ModeEncOfb :
    ∃ (s : State) (keys : List Subkey) (iv : Block), Inv s ∧ s.regs.modeValid = true ∧ EngineKeys s keys ∧
      s.regs.modeKind = .holds .ofb ∧ s.regs.iv = .holds iv ∧ s.dataIn.length ≤ s.cfg.maxDataLen :=
  ⟨withData (helloAli.take 7) (bound .ofb false 1), _, 1, bound_inv _ _ _ _, rfl, ⟨_, _, rfl, rfl, rfl⟩, rfl, rfl, by decide⟩

/-- The last counter a message may reach: one block at IV = 2^64 − 1. -/
theorem witness_ModeEncCtr :
    ∃ (s : State) (keys : List Subkey) (iv : Block), Inv s ∧ s.regs.modeValid = true ∧ EngineKeys s keys ∧
      s.regs.modeKind = .holds .ctr ∧ s.regs.iv = .holds iv ∧ s.dataIn.length ≤ s.cfg.maxDataLen ∧
      CtrInRange s iv (s.dataIn.length / 8 + 1) :=
  ⟨withData [] (bound .ctr false 0xFFFFFFFFFFFFFFFF), _, 0xFFFFFFFFFFFFFFFF, bound_inv _ _ _ _, rfl,
    ⟨_, _, rfl, rfl, rfl⟩, rfl, rfl, by decide, fun _ => by decide⟩

/-- Each clause, the counter clause on both sides of its limit. -/
theorem witness_ModeEncErrors :
    (∃ s : State, s.regs.modeValid = false) ∧
    (∃ s : State, s.regs.modeValid = true ∧ s.cfg.maxDataLen < s.dataIn.length) ∧
    (∃ (s : State) (iv : Block), s.regs.modeValid = true ∧ s.dataIn.length ≤ s.cfg.maxDataLen ∧
      s.regs.modeKind = .holds .ctr ∧ s.regs.iv = .holds iv ∧ s.cfg.ctrOverflow = .fault ∧
      2 ^ 64 ≤ iv.toNat + s.dataIn.length / 8) ∧
    (∃ (s : State) (iv : Block), s.regs.modeValid = true ∧ s.dataIn.length ≤ s.cfg.maxDataLen ∧
      s.regs.modeKind = .holds .ctr ∧ s.regs.iv = .holds iv ∧ iv.toNat + s.dataIn.length / 8 = 2 ^ 64 - 1) :=
  ⟨⟨State.reset, rfl⟩,
    ⟨{ withData (List.replicate 17 0) (bound .ecb false 0) with cfg := { presetConfig with maxDataLen := 16 } }, rfl,
      by decide⟩,
    ⟨withData helloAli (bound .ctr false 0xFFFFFFFFFFFFFFFF), _, rfl, by decide, rfl, rfl, rfl, by decide⟩,
    ⟨withData helloAli (bound .ctr false 0xFFFFFFFFFFFFFFFE), _, rfl, by decide, rfl, rfl, by decide⟩⟩

theorem witness_ModeDecEcb :
    ∃ (s : State) (keys : List Subkey) (strict : Bool), Inv s ∧ s.regs.modeValid = true ∧ EngineKeys s keys ∧
      s.regs.modeKind = .holds .ecb ∧ s.regs.modeStrict = .holds strict ∧
      s.dataIn.length ≤ s.cfg.maxDataLen ∧ s.dataIn.length % 8 = 0 :=
  ⟨withData helloAli (bound .ecb true 0), _, true, bound_inv _ _ _ _, rfl, ⟨_, _, rfl, rfl, rfl⟩, rfl, rfl,
    by decide, rfl⟩

theorem witness_ModeDecCbc :
    ∃ (s : State) (keys : List Subkey) (strict : Bool) (iv : Block), Inv s ∧ s.regs.modeValid = true ∧ EngineKeys s keys ∧
      s.regs.modeKind = .holds .cbc ∧ s.regs.iv = .holds iv ∧ s.regs.modeStrict = .holds strict ∧
      s.dataIn.length ≤ s.cfg.maxDataLen ∧ s.dataIn.length % 8 = 0 :=
  ⟨withData helloAli (bound .cbc false 1), _, false, 1, bound_inv _ _ _ _, rfl, ⟨_, _, rfl, rfl, rfl⟩, rfl, rfl, rfl,
    by decide, rfl⟩

theorem witness_ModeDecCfb :
    ∃ (s : State) (keys : List Subkey) (strict : Bool) (iv : Block), Inv s ∧ s.regs.modeValid = true ∧ EngineKeys s keys ∧
      s.regs.modeKind = .holds .cfb ∧ s.regs.iv = .holds iv ∧ s.regs.modeStrict = .holds strict ∧
      s.dataIn.length ≤ s.cfg.maxDataLen ∧ s.dataIn.length % 8 = 0 :=
  ⟨withData helloAli (bound .cfb false 1), _, false, 1, bound_inv _ _ _ _, rfl, ⟨_, _, rfl, rfl, rfl⟩, rfl, rfl, rfl,
    by decide, rfl⟩

theorem witness_ModeDecOfbAndCtr :
    ∃ (s : State) (keys : List Subkey) (strict : Bool) (iv : Block), Inv s ∧ s.regs.modeValid = true ∧ EngineKeys s keys ∧
      (s.regs.modeKind = .holds .ctr ∧ CtrInRange s iv (s.dataIn.length / 8)) ∧
      s.regs.iv = .holds iv ∧ s.regs.modeStrict = .holds strict ∧
      s.dataIn.length ≤ s.cfg.maxDataLen ∧ s.dataIn.length % 8 = 0 :=
  ⟨withData helloAli (bound .ctr false 0xFFFFFFFFFFFFFFFF), _, false, 0xFFFFFFFFFFFFFFFF, bound_inv _ _ _ _, rfl,
    ⟨_, _, rfl, rfl, rfl⟩, ⟨rfl, fun _ => by decide⟩, rfl, rfl, by decide, rfl⟩

theorem witness_ModeDecOfb :
    ∃ (s : State) (keys : List Subkey) (strict : Bool) (iv : Block), Inv s ∧ s.regs.modeValid = true ∧ EngineKeys s keys ∧
      s.regs.modeKind = .holds .ofb ∧ s.regs.iv = .holds iv ∧ s.regs.modeStrict = .holds strict ∧
      s.dataIn.length ≤ s.cfg.maxDataLen ∧ s.dataIn.length % 8 = 0 :=
  ⟨withData [] (bound .ofb true 1), _, true, 1, bound_inv _ _ _ _, rfl, ⟨_, _, rfl, rfl, rfl⟩, rfl, rfl, rfl,
    by decide, rfl⟩

/-- Each clause; the counter clause overflows with two blocks at IV = 2^64 − 1. -/
theorem witness_ModeDecErrors :
    (∃ s : State, s.regs.modeValid = false) ∧
    (∃ s : State, s.regs.modeValid = true ∧ s.cfg.maxDataLen < s.dataIn.length) ∧
    (∃ s : State, s.regs.modeValid = true ∧ s.dataIn.length ≤ s.cfg.maxDataLen ∧ s.dataIn.length % 8 ≠ 0) ∧
    (∃ (s : State) (iv : Block), s.regs.modeValid = true ∧ s.dataIn.length ≤ s.cfg.maxDataLen ∧
      s.dataIn.length % 8 = 0 ∧ s.regs.modeKind = .holds .ctr ∧ s.regs.iv = .holds iv ∧ s.cfg.ctrOverflow = .fault ∧
      1 ≤ s.dataIn.length / 8 ∧ 2 ^ 64 ≤ iv.toNat + (s.dataIn.length / 8 - 1)) :=
  ⟨⟨State.reset, rfl⟩,
    ⟨{ withData (List.replicate 17 0) (bound .ecb false 0) with cfg := { presetConfig with maxDataLen := 16 } }, rfl,
      by decide⟩,
    ⟨withData (helloAli.take 7) (bound .cfb false 0), rfl, by decide, by decide⟩,
    ⟨withData (helloAli ++ helloAli) (bound .ctr false 0xFFFFFFFFFFFFFFFF), _, rfl, by decide, rfl, rfl, rfl, rfl,
      by decide, by decide⟩⟩

theorem witness_PaddingFillsTheLastBlock : (helloAli.take 7).length = 7 := rfl

/-- Each clause of lenient unpadding at its boundary: n = 1, n = 8, n = length, and n = 0, n = 9, n = length + 1. -/
theorem witness_LenientUnpaddingLooksAtTheLastByte :
    (∃ (w : Bytes) (n : Byte), 1 ≤ n.toNat ∧ n.toNat ≤ 8 ∧ n.toNat ≤ w.length + 1 ∧ n.toNat = 1) ∧
    (∃ (w : Bytes) (n : Byte), 1 ≤ n.toNat ∧ n.toNat ≤ 8 ∧ n.toNat ≤ w.length + 1 ∧ n.toNat = w.length + 1) ∧
    (∃ (n : Byte), n.toNat = 0) ∧ (∃ (n : Byte), 8 < n.toNat) ∧
    (∃ (w : Bytes) (n : Byte), n.toNat ≤ 8 ∧ w.length + 1 < n.toNat) :=
  ⟨⟨helloAli, 1, by decide, by decide, by decide, rfl⟩, ⟨helloAli.take 7, 8, by decide, by decide, by decide, rfl⟩,
    ⟨0, rfl⟩, ⟨9, by decide⟩, ⟨[], 5, by decide, by decide⟩⟩

theorem witness_StrictUnpaddingInvertsPadding :
    (List.replicate 8 (0x08 : Byte)).length % 8 = 0 ∧ unpadStrict (List.replicate 8 0x08) = some [] := by decide

theorem witness_ModeDecryptionUndoesModeEncryption :
    ∃ s : State, Inv s ∧ s.regs.modeValid = true ∧ s.dataIn.length + 8 ≤ s.cfg.maxDataLen ∧
      (∀ iv, s.regs.modeKind = .holds .ctr → s.regs.iv = .holds iv → CtrInRange s iv (s.dataIn.length / 8 + 1)) :=
  ⟨withData helloAli (bound .ctr true 0xFFFFFFFFFFFFFFFE), bound_inv _ _ _ _, rfl, by decide, by
    intro iv _ h
    cases h
    exact fun _ => by decide⟩

/-- A MODE_ENC and a MODE_DEC that end in OK: the hypotheses of the statements about successful results. -/
theorem witness_LengthsOfModeResults :
    (∃ (s t : State) (out : Bytes), exec .modeEnc s = .next t ∧ t.response = some ⟨0x00, out⟩) ∧
    (∃ (s t : State) (out : Bytes), exec .modeDec s = .next t ∧ t.response = some ⟨0x00, out⟩) :=
  ⟨⟨withData [] (bound .ecb false 0), _, _, rfl, rfl⟩, ⟨withData [] (bound .ecb false 0), _, _, rfl, rfl⟩⟩

theorem witness_FirstKeystreamBlockIsShared :
    ∃ (s : State) (iv : Block), Inv s ∧ s.regs.modeValid = true ∧ s.regs.iv = .holds iv ∧
      s.dataIn.length ≤ s.cfg.maxDataLen ∧ CtrInRange s iv (s.dataIn.length / 8 + 1) :=
  ⟨withData helloAli (bound .cfb false 1), 1, bound_inv _ _ _ _, rfl, rfl, by decide, fun _ => by decide⟩

theorem witness_ReissuedCommandGivesTheSameResponse : ∃ s t : State, exec .blockEnc s = .next t :=
  ⟨State.reset, _, rfl⟩

theorem witness_ErrorsChangeNothing :
    ∃ s t : State, exec .blockDec s = .next t ∧ t.response = some ⟨0x06, []⟩ ∧ (0x06 : BitVec 8) ≠ 0x00 :=
  ⟨State.reset, _, rfl, rfl, by decide⟩

theorem witness_EachCommandEndsInItsStatuses :
    ∃ (s t : State) (rsp : Response), t.response = some rsp ∧ exec .modeEnc s = .next t :=
  ⟨State.reset, _, _, rfl, rfl⟩

theorem witness_DataCommandsWriteNoRegister : ∃ s t : State, exec .modeDec s = .next t := ⟨State.reset, _, rfl⟩

theorem witness_InitCommandsFrame :
    (∃ s t : State, exec (.engineInit 8) s = .next t) ∧ (∃ s t : State, exec (.modeInitEcb true true) s = .next t) ∧
    (∃ s t : State, exec (.modeInitCtr true true) s = .next t) :=
  ⟨⟨State.reset, _, rfl⟩, ⟨engine 8, _, rfl⟩, ⟨withIvIn helloAli (engine 8), _, rfl⟩⟩

/-- A successful ENGINE_INIT from reset changes ENGINE_VALID. -/
theorem witness_OnlyEngineInitOrResetChangesTheEngine :
    ∃ s t : State, exec (.engineInit 8) s = .next t ∧ t.regs.engineValid ≠ s.regs.engineValid :=
  ⟨State.reset, _, rfl, by decide⟩

/-- An engine whose ROUNDS, or whose SUBKEY, was never written; no run reaches such registers. -/
def unbuilt (rounds : Reg (BitVec 6)) : Regs := { Regs.reset with engineValid := true, rounds := rounds }

/-- A mode bound to such an engine, or to a whole one, with registers of its own. -/
def unboundMode (kind : Reg Kind) (strict : Reg Bool) (iv : Reg Block) (r : Regs) : Regs :=
  { r with modeValid := true, modeKind := kind, modeStrict := strict, iv := iv }

theorem firstUnwritten_unbuilt (s : State) (h : s.regs.rounds = .holds 8) (h0 : s.regs.subkey[(0 : Fin 32)] = .unwritten) :
    FirstUnwrittenSubkey s 0 := ⟨8, h, by decide, h0, fun _ h => absurd h (Nat.not_lt_zero _)⟩

/-- A witness for each clause; MODE_ENC takes a message of any length. -/
theorem witness_ReadingAnUnwrittenRegisterFaults :
    (∃ s : State, s.regs.engineValid = true ∧ s.dataIn.length = 8 ∧ s.regs.rounds = .unwritten) ∧
    (∃ (s : State) (j : Fin 32), s.regs.engineValid = true ∧ s.dataIn.length = 8 ∧ FirstUnwrittenSubkey s j) ∧
    (∃ s : State, s.regs.modeValid = true ∧ s.dataIn.length ≤ s.cfg.maxDataLen ∧ s.dataIn.length % 8 = 0 ∧
      s.regs.modeKind = .unwritten) ∧
    (∃ (s : State) (kind : Kind), s.regs.modeValid = true ∧ s.dataIn.length ≤ s.cfg.maxDataLen ∧
      s.dataIn.length % 8 = 7 ∧ s.regs.modeKind = .holds kind ∧ kind ≠ .ecb ∧ s.regs.iv = .unwritten) :=
  ⟨⟨withData helloAli (State.reset.withRegs (unbuilt .unwritten)), rfl, rfl, rfl⟩,
    ⟨withData helloAli (State.reset.withRegs (unbuilt (.holds 8))), 0, rfl, rfl, firstUnwritten_unbuilt _ rfl rfl⟩,
    ⟨State.reset.withRegs (unboundMode .unwritten .unwritten .unwritten Regs.reset), rfl, by decide, rfl, rfl⟩,
    ⟨withData (helloAli.take 7) (State.reset.withRegs (unboundMode (.holds .cbc) .unwritten .unwritten Regs.reset)), .cbc,
      rfl, by decide, rfl, rfl, by decide, rfl⟩⟩

/-- The clauses behind a binding that can be read: ROUNDS, SUBKEY, and MODE_STRICT over a whole engine. -/
theorem witness_ReadingTheEngineUnderAMode :
    (∃ s : State, s.regs.modeValid = true ∧ BindingHeld s ∧ CounterInRange s 0 ∧ s.dataIn.length % 8 = 0 ∧
      s.regs.rounds = .unwritten) ∧
    (∃ s : State, s.regs.modeValid = true ∧ BindingHeld s ∧ CounterInRange s 1 ∧ FirstUnwrittenSubkey s 0) ∧
    (∃ s : State, s.regs.modeValid = true ∧ BindingHeld s ∧ CounterInRange s 0 ∧ EngineHeld s ∧
      s.regs.modeStrict = .unwritten) :=
  ⟨⟨State.reset.withRegs (unboundMode (.holds .ecb) (.holds true) .unwritten (unbuilt .unwritten)), rfl,
      ⟨.ecb, rfl, fun h => absurd rfl h⟩, (fun _ h => by cases h), rfl, rfl⟩,
    ⟨State.reset.withRegs (unboundMode (.holds .ctr) (.holds true) (.holds 5) (unbuilt (.holds 8))), rfl,
      ⟨.ctr, rfl, fun _ h => by cases h⟩, (fun iv _ h _ => by cases h; decide), firstUnwritten_unbuilt _ rfl rfl⟩,
    ⟨State.reset.withRegs (unboundMode (.holds .ecb) .unwritten .unwritten (unbuilt (.holds 0))), rfl,
      ⟨.ecb, rfl, fun h => absurd rfl h⟩, (fun _ h => by cases h), ⟨0, rfl, by decide, fun j h => absurd h (Nat.not_lt_zero _)⟩,
      rfl⟩⟩

theorem witness_NoFaultUnderTheInvariants : ∃ s : State, Inv s ∧ s.regs.modeValid = true :=
  ⟨withData [] (bound .cbc true 1), bound_inv _ _ _ _, rfl⟩

theorem witness_KeyRegisterIsNeverRead : ∃ s t : State, exec .blockEnc s = .next t ∧ s.regs.key ≠ .unwritten :=
  ⟨engine 16, _, rfl, by decide⟩

theorem witness_UnreadOperandsAreIgnored :
    (∃ s t : State, exec .blockDec s = .next t) ∧ (∃ s t : State, exec (.engineInit 32) s = .next t) ∧
    (∃ s t : State, exec (.modeInitCbc true false) s = .next t) ∧
    (∃ s t : State, exec (.modeInitCbc false false) s = .next t) :=
  ⟨⟨State.reset, _, rfl⟩, ⟨State.reset, _, rfl⟩, ⟨withIvIn helloAli (engine 8), _, rfl⟩, ⟨engine 8, _, rfl⟩⟩

theorem witness_ResponsesAndLaterCommandsAreNotRead : ∃ s t : State, exec .modeEnc s = .next t := ⟨State.reset, _, rfl⟩

/-- Two machines that differ in KEY and in an IV that ECB does not read are one to the host. -/
theorem witness_HostSeesOnlyResponses :
    (∃ s u : State, SameToTheHost s u ∧ s.regs.modeValid = true ∧ s.regs.key ≠ u.regs.key ∧ s.regs.iv ≠ u.regs.iv) ∧
    (shapeOk State.reset.cfg.tables = true ∧ Event.reset.isReset = true ∧ 8 ≤ 8 ∧ 8 ≤ 32 ∧ helloAli.length = 8) :=
  ⟨⟨bound .ecb true 1, State.setKey .unwritten (bound .ecb true 2),
      ⟨rfl, rfl, rfl, fun _ => ⟨rfl, rfl⟩, fun _ => ⟨rfl, rfl, fun h => absurd rfl h⟩⟩, rfl, by decide, by decide⟩,
    test_des_standard_shape, rfl, by decide, by decide, rfl⟩

theorem witness_AssembledWords :
    (Kind.ecb, 0) ∈ [(Kind.ecb, 0), (.cbc, 1), (.cfb, 2), (.ofb, 3), (.ctr, 4)] ∧
    (Kind.ctr, 4) ∈ [(Kind.ecb, 0), (.cbc, 1), (.cfb, 2), (.ofb, 3), (.ctr, 4)] := by decide

/-- The counts where the clauses meet, an IV of 7 bytes and one of 9, and a first command that fails. -/
theorem witness_ExpansionStopsAtTheFirstError :
    shapeOk State.reset.cfg.tables = true ∧
    255 < (some 256).getD 16 ∧ ((some 7).getD 16 < 8 ∨ 32 < (some 7).getD 16 ∧ (some 7).getD 16 ≤ 255) ∧
    (32 < (some 255).getD 16 ∧ (some 255).getD 16 ≤ 255) ∧
    (8 ≤ (none : Option Nat).getD 16 ∧ (none : Option Nat).getD 16 ≤ 32 ∧ Kind.cfb ≠ .ecb) ∧
    (helloAli.take 7).length ≠ 8 ∧ (helloAli ++ [0]).length ≠ 8 ∧
    (∃ (r : Request) (s t : State), transact r s = .next t ∧ t.responseOk = false) :=
  ⟨test_des_standard_shape, by decide, by decide, by decide, by decide, by decide, by decide,
    ⟨⟨0, [], [], []⟩, State.reset, (State.reset.accept ⟨0, [], [], []⟩ []).respond .illegalCommand [],
      step_request (s := State.reset.issue ⟨0, [], [], []⟩) test_des_standard_shape rfl, rfl⟩⟩

theorem witness_DecryptLineUndoesEncryptLine :
    ∃ (s u : State) (kind : Kind) (data : Bytes) (iv : Option Bytes) (rounds : Option Nat),
      shapeOk s.cfg.tables = true ∧ u.cfg = s.cfg ∧ 8 ≤ rounds.getD 16 ∧ rounds.getD 16 ≤ 32 ∧
      (kind ≠ .ecb → ∃ v, iv = some v ∧ v.length = 8 ∧
        (kind = .ctr → CtrInRange s (be64 v) (data.length / 8 + 1))) ∧
      data.length + 8 ≤ s.cfg.maxDataLen :=
  ⟨State.reset, bound .ecb true 0, .ctr, helloAli, some helloAli, none, test_des_standard_shape, rfl, by decide,
    by decide, fun _ => ⟨helloAli, rfl, rfl, fun _ _ => by decide⟩, by decide⟩

end Sys2Proof.Tests
end

