-- ==== Sys2Proof/Proofs/Scope.lean ====
section
/-! PROOFS. The bit operators of 00_scope.md, read in DES positions. -/

namespace Sys2Proof.Machine

/-- R14 in the spec's own numbering. Position k of an m-bit value is its bit m − k, which `perm_getLsbD` finds by
counting the table from its end: that is entry k counted from 1. -/
theorem desPos_perm {w m : Nat} {table : List Nat} (v : BitVec w) {k n : Nat} (hlen : table.length = m)
    (hk : 1 ≤ k) (hentry : table[k - 1]? = some n) : desPos (perm m table v) k = desPos v n := by
  obtain ⟨hlt, -⟩ := List.getElem?_eq_some_iff.mp hentry
  have hrev : table.reverse[m - k]? = some n := by
    rw [List.getElem?_reverse (by omega), show table.length - 1 - (m - k) = k - 1 by omega, hentry]
  calc desPos (perm m table v) k
      = (table.reverse.map (desPos v)).getD (m - k) false := perm_getLsbD m table v (m - k) (by omega)
    _ = desPos v n := by rw [List.getD_eq_getElem?_getD, List.getElem?_map, hrev, Option.map_some, Option.getD_some]

/-- Settles O17. The premise that the positions lie in 1..w is not needed: `desPos v n` is the same bit w − n of v for
every n. -/
theorem permutationPlacesEachPosition : Obligations.PermutationPlacesEachPosition := by
  intro w m table v hlen _ k n hk _ hentry
  exact desPos_perm v hlen hk hentry

end Sys2Proof.Machine
end

