-- ==== Sys2Proof/Proofs/State.lean ====
section
/-! PROOFS. The invariants of 10_state.md R47: one lemma per kind of state update says that the update keeps or
establishes them, and `exec_cases` and `step_cases` say that a step makes no other update. -/

namespace Sys2Proof.Machine

/-! ### The invariants under each update -/

/-- The invariants speak of the configuration and the registers only, so operands, responses and events do not matter. -/
theorem inv_congr {s t : State} (h : Inv s) (hcfg : t.cfg = s.cfg) (hregs : t.regs = s.regs) : Inv t := by
  unfold Inv
  rw [hcfg, hregs]
  exact h

theorem inv_respond {s : State} (h : Inv s) (st : Status) (out : Bytes) : Inv (s.respond st out) :=
  inv_congr h (respond_cfg st out s) (respond_regs st out s)

theorem inv_accept {s : State} (h : Inv s) (q : Request) (rest : List Event) : Inv (s.accept q rest) :=
  inv_congr h (accept_cfg q rest s) (accept_regs q rest s)

theorem inv_idle {s : State} (h : Inv s) : Inv s.idle := inv_congr h (idle_cfg s) (idle_regs s)

/-- A reset clears both valid bits (R46), which leaves nothing to keep. -/
theorem inv_takeReset (s : State) (rest : List Event) : Inv (s.takeReset rest) :=
  ⟨fun hm => absurd hm Bool.false_ne_true,
   fun he => absurd he Bool.false_ne_true,
   fun hm => absurd hm Bool.false_ne_true⟩

/-- ENGINE_INIT builds an engine from an 8-byte key and unbinds the mode (R148), whatever stood before. -/
theorem inv_buildEngine (s : State) {kb : Bytes} {n : Nat} (hkb : kb.length = 8) (h8 : 8 ≤ n) (h32 : n ≤ 32) :
    Inv (s.withRegs (s.regs.buildEngine s.cfg.tables kb n)) :=
  ⟨fun hm => absurd hm Bool.false_ne_true,
   fun _ => engineBuilt_buildEngine s.cfg.tables kb n s.regs hkb h8 h32,
   fun hm => absurd hm Bool.false_ne_true⟩

/-- MODE_INIT binds a mode to a built engine (R235), with an IV if the kind has one. -/
theorem inv_bindMode {s : State} {r : Regs} {kind : Kind} (strict : Bool) (hvalid : r.engineValid = true)
    (hbuilt : EngineBuilt s.cfg.tables r) (hiv : kind ≠ .ecb → ∃ iv, r.iv = .holds iv) :
    Inv (s.withRegs (r.bindMode kind strict)) :=
  ⟨fun _ => hvalid,
   fun _ => engineBuilt_congr hbuilt (bindMode_key kind strict r) (bindMode_rounds kind strict r)
     (bindMode_subkey kind strict r),
   fun _ => ⟨kind, strict, bindMode_modeKind kind strict r, bindMode_modeStrict kind strict r, hiv⟩⟩

/-! ### The invariants under commands and steps -/

/-- Every command keeps the invariants. -/
theorem exec_preserves_inv {i : Instr} {s t : State} (h : Inv s) (hexec : exec i s = .next t) : Inv t := by
  rcases exec_cases hexec with ⟨st, out, rfl⟩ | ⟨n, -, h8, h32, rfl⟩ | ⟨_, strict, kind, r, hvalid, -, hr, rfl⟩
  · exact inv_respond h st out
  · exact inv_respond (inv_buildEngine s (normKey_length s.keyIn) h8 h32) .ok []
  · obtain ⟨-, hengine, -⟩ := h
    have hbuilt : EngineBuilt s.cfg.tables s.regs := hengine hvalid
    apply inv_respond
    rcases hr with ⟨hecb, rfl⟩ | ⟨-, -, -, rfl⟩
    · exact inv_bindMode strict hvalid hbuilt (fun hchained => absurd hecb hchained)
    · exact inv_bindMode strict hvalid (engineBuilt_congr hbuilt rfl rfl rfl) (fun _ => ⟨_, setIv_iv _ _⟩)

/-- Settles O10, by the cases of a step: it waits, takes a reset, runs an instruction or refuses a word. -/
theorem everyStepKeepsTheInvariants : Obligations.EveryStepKeepsTheInvariants := by
  intro s t h hstep
  obtain ⟨-, ⟨-, rfl⟩ | ⟨_, rest, -, -, rfl⟩ | ⟨q, rest, -, ⟨_, -, hexec⟩ | ⟨_, -, rfl⟩⟩⟩ := step_cases hstep
  · exact inv_idle h
  · exact inv_takeReset s rest
  · exact exec_preserves_inv (inv_accept h q rest) hexec
  · exact inv_respond (inv_accept h q rest) .illegalCommand []

end Sys2Proof.Machine
end

/-! PROOFS. The decoder and the assembler of 30_encoding.md: a mask is a set of fields, a word is accepted by one row at
most, and the words the table leaves out are the cases of R109. -/

namespace Sys2Proof

open Sys2Proof.Machine

/-! ### Masks as sets of fields -/

/-- Whether bit `i` lies in one of the listed fields, each given by its lowest bit and its width. -/
def inFields (fields : List (Nat × Nat)) (i : Nat) : Bool := fields.any fun f => decide (f.1 ≤ i ∧ i < f.1 + f.2)

theorem inFields_iff {fields : List (Nat × Nat)} {i : Nat} :
    inFields fields i = true ↔ ∃ f ∈ fields, f.1 ≤ i ∧ i < f.1 + f.2 := by
  simp [inFields]

/-- Two words agree in a field exactly when they agree in its bits. -/
theorem extractLsb'_eq_iff {w v : CmdWord} {start len : Nat} :
    w.extractLsb' start len = v.extractLsb' start len ↔
      ∀ i, start ≤ i → i < start + len → w.getLsbD i = v.getLsbD i := by
  constructor
  · intro h i hlo hhi
    have hbit := congrArg (·.getLsbD (i - start)) h
    simpa [show i - start < len by omega, show start + (i - start) = i by omega] using hbit
  · intro h
    apply BitVec.eq_of_getLsbD_eq
    intro i hi
    simp [hi, h (start + i) (by omega) (by omega)]

/-- `w AND mask = pattern` says that w has the pattern's value in each field the mask covers, when the pattern is zero
outside the mask. -/
theorem and_mask_eq_iff_fields {w mask pattern : CmdWord} {fields : List (Nat × Nat)}
    (hmask : ∀ i : Fin 32, mask.getLsbD i = inFields fields i) (hpattern : pattern &&& mask = pattern) :
    w &&& mask = pattern ↔ ∀ f ∈ fields, w.extractLsb' f.1 f.2 = pattern.extractLsb' f.1 f.2 := by
  simp only [extractLsb'_eq_iff]
  constructor
  · intro h f hf i hlo hhi
    by_cases hi : i < 32
    · have hin : mask.getLsbD i = true := by rw [hmask ⟨i, hi⟩]; exact inFields_iff.mpr ⟨f, hf, hlo, hhi⟩
      rw [← h, BitVec.getLsbD_and, hin, Bool.and_true]
    · rw [BitVec.getLsbD_of_ge _ _ (by omega), BitVec.getLsbD_of_ge _ _ (by omega)]
  · intro h
    rw [← hpattern]
    apply BitVec.eq_of_getLsbD_eq
    intro i hi
    rw [BitVec.getLsbD_and, BitVec.getLsbD_and]
    cases hin : mask.getLsbD i with
    | false => simp
    | true =>
      rw [hmask ⟨i, hi⟩] at hin
      obtain ⟨f, hf, hlo, hhi⟩ := inFields_iff.mp hin
      rw [h f hf i hlo hhi]

/-! ### The rows of R107 -/

theorem accepts_iff {r : Row} {w : CmdWord} : r.accepts w = true ↔ w &&& r.mask = r.pattern := beq_iff_eq

/-- Two rows that accept one word have patterns that agree under both masks. -/
theorem patterns_agree_of_accepts {r r' : Row} {w : CmdWord} (h : r.accepts w = true) (h' : r'.accepts w = true) :
    r.pattern &&& r'.mask = r'.pattern &&& r.mask := by
  rw [← accepts_iff.mp h, ← accepts_iff.mp h', BitVec.and_assoc, BitVec.and_assoc, BitVec.and_comm r.mask]

/-- The table's patterns agree under both masks only for a row and itself. -/
theorem opcodeRows_disjoint :
    ∀ r ∈ opcodeRows, ∀ r' ∈ opcodeRows, r.pattern &&& r'.mask = r'.pattern &&& r.mask → r = r' := by
  decide

/-- No word is accepted by two rows (R107). -/
theorem row_unique {r r' : Row} {w : CmdWord} (hr : r ∈ opcodeRows) (hr' : r' ∈ opcodeRows)
    (h : r.accepts w = true) (h' : r'.accepts w = true) : r = r' :=
  opcodeRows_disjoint r hr r' hr' (patterns_agree_of_accepts h h')

/-- The fields that a command's row fixes: OP, for MODE_INIT also KIND, and the fields the command does not use, which
must be zero (R107, R109). The other fields are the row's variables. -/
def Op.fixedFields : Op → List (Nat × Nat)
  | .engineInit => [(0, 4), (4, 12), (24, 8)]
  | .modeInit _ => [(0, 4), (4, 3), (9, 23)]
  | .blockEnc | .blockDec | .modeEnc | .modeDec => [(0, 4), (4, 28)]

theorem row_mask_eq_fixedFields :
    ∀ r ∈ opcodeRows, ∀ i : Fin 32, r.mask.getLsbD i = inFields r.op.fixedFields i := by
  decide

theorem row_pattern_within_mask : ∀ r ∈ opcodeRows, r.pattern &&& r.mask = r.pattern := by decide

/-- A row accepts the words that have its pattern in the fields it fixes. -/
theorem accepts_iff_fixedFields {r : Row} (hr : r ∈ opcodeRows) {w : CmdWord} :
    r.accepts w = true ↔ ∀ f ∈ r.op.fixedFields, w.extractLsb' f.1 f.2 = r.pattern.extractLsb' f.1 f.2 :=
  accepts_iff.trans (and_mask_eq_iff_fields (row_mask_eq_fixedFields r hr) (row_pattern_within_mask r hr))

/-! ### The decoder -/

/-- The row the decoder finds is the only one that accepts the word. -/
theorem find_row_eq_some_iff {w : CmdWord} {r : Row} :
    opcodeRows.find? (fun r => r.accepts w) = some r ↔ r ∈ opcodeRows ∧ r.accepts w = true := by
  constructor
  · intro h
    exact ⟨List.mem_of_find?_eq_some h, List.find?_some (p := (Row.accepts · w)) h⟩
  · rintro ⟨hr, hacc⟩
    obtain ⟨r', hfind⟩ := Option.isSome_iff_exists.mp (List.find?_isSome (p := (Row.accepts · w)) |>.mpr ⟨r, hr, hacc⟩)
    rw [hfind, row_unique (List.mem_of_find?_eq_some hfind) hr (List.find?_some (p := (Row.accepts · w)) hfind) hacc]

/-- The decoder answers what the row that accepts the word builds from it. -/
theorem decode_eq_ok_iff {w : CmdWord} {i : Instr} :
    decode w = .ok i ↔ ∃ r ∈ opcodeRows, r.accepts w = true ∧ r.op.build w = i := by
  have hdecode : decode w = .ok i ↔ ∃ r, opcodeRows.find? (fun r => r.accepts w) = some r ∧ r.op.build w = i := by
    unfold decode
    cases opcodeRows.find? fun r => r.accepts w <;> simp
  simp only [hdecode, find_row_eq_some_iff, and_assoc]

/-- The decoder refuses the words that no row accepts. -/
theorem decode_eq_error_iff {w : CmdWord} :
    (∃ e, decode w = .error e) ↔ ∀ r ∈ opcodeRows, ¬ r.accepts w = true := by
  rw [← List.find?_eq_none]
  unfold decode
  cases opcodeRows.find? fun r => r.accepts w <;> simp

/-- The command that an instruction is an instance of. -/
def Instr.op : Instr → Op
  | .engineInit _ => .engineInit
  | .blockEnc => .blockEnc
  | .blockDec => .blockDec
  | .modeInitEcb _ _ => .modeInit .ecb
  | .modeInitCbc _ _ => .modeInit .cbc
  | .modeInitCfb _ _ => .modeInit .cfb
  | .modeInitOfb _ _ => .modeInit .ofb
  | .modeInitCtr _ _ => .modeInit .ctr
  | .modeEnc => .modeEnc
  | .modeDec => .modeDec

@[simp] theorem op_modeInitInstr (kind : Kind) (ivp strict : Bool) :
    (modeInitInstr kind ivp strict).op = .modeInit kind := by
  cases kind <;> rfl

@[simp] theorem op_build (op : Op) (w : CmdWord) : (op.build w).op = op := by
  cases op with
  | modeInit kind => exact op_modeInitInstr kind _ _
  | _ => rfl

theorem row_eq_of_op_eq : ∀ r ∈ opcodeRows, ∀ r' ∈ opcodeRows, r.op = r'.op → r = r' := by decide

/-- A word decodes to an instruction exactly when the row of the instruction's own command accepts it and builds it. -/
theorem decode_eq_ok_iff_row {w : CmdWord} {i : Instr} (op : Op) (pattern mask : CmdWord)
    (hr : ⟨op, pattern, mask⟩ ∈ opcodeRows) (hop : i.op = op) :
    decode w = .ok i ↔ w &&& mask = pattern ∧ op.build w = i := by
  rw [decode_eq_ok_iff]
  constructor
  · rintro ⟨r, hmem, hacc, rfl⟩
    rw [op_build] at hop
    obtain rfl := row_eq_of_op_eq r hmem _ hr hop
    exact ⟨accepts_iff.mp hacc, rfl⟩
  · rintro ⟨hacc, hbuild⟩
    exact ⟨_, hr, accepts_iff.mpr hacc, hbuild⟩

/-- `decode_eq_ok_iff_row` for a command without variable fields. -/
theorem decode_eq_ok_iff_fixed {w : CmdWord} {i : Instr} (op : Op) (pattern mask : CmdWord)
    (hr : ⟨op, pattern, mask⟩ ∈ opcodeRows) (hbuild : op.build w = i) :
    decode w = .ok i ↔ w &&& mask = pattern := by
  rw [decode_eq_ok_iff_row op pattern mask hr (hbuild ▸ op_build op w), and_iff_left hbuild]

/-- `decode_eq_ok_iff_row` for ENGINE_INIT, whose variable field is ROUNDS. -/
theorem decode_eq_engineInit_iff {w : CmdWord} (n : Nat) :
    decode w = .ok (.engineInit n) ↔ w &&& 0xFF00FFFF = 0x00000001 ∧ n = (w.extractLsb' 16 8).toNat := by
  rw [decode_eq_ok_iff_row .engineInit 0x00000001 0xFF00FFFF (by decide) rfl, Op.build, Instr.engineInit.injEq,
    roundsField, eq_comm (a := n)]

theorem modeInitInstr_inj {kind : Kind} {v v' t t' : Bool} :
    modeInitInstr kind v t = modeInitInstr kind v' t' ↔ v = v' ∧ t = t' := by
  cases kind <;> simp [modeInitInstr]

/-- `decode_eq_ok_iff_row` for MODE_INIT, whose variable fields are IVP and STRICT. -/
theorem decode_eq_modeInit_iff {w : CmdWord} (kind : Kind) (pattern : CmdWord)
    (hr : ⟨.modeInit kind, pattern, 0xFFFFFE7F⟩ ∈ opcodeRows) (v t : Bool) :
    decode w = .ok (modeInitInstr kind v t) ↔ w &&& 0xFFFFFE7F = pattern ∧ v = w.getLsbD 7 ∧ t = w.getLsbD 8 := by
  rw [decode_eq_ok_iff_row (.modeInit kind) pattern 0xFFFFFE7F hr (op_modeInitInstr kind v t), Op.build,
    modeInitInstr_inj, ivpField, strictField, eq_comm (a := v), eq_comm (a := t)]

/-- Settles O3. An instruction names its command, hence its row, and the row's variable fields are the arguments. -/
theorem decoderFollowsMaskAndMatch : Obligations.DecoderFollowsMaskAndMatch := by
  refine ⟨fun w => ⟨decode_eq_engineInit_iff, ?blockEnc, ?blockDec, ?ecb, ?cbc, ?cfb, ?ofb, ?ctr, ?modeEnc, ?modeDec⟩,
    fun w r r' hr hr' h h' => row_unique hr hr' h h'⟩
  case blockEnc => exact decode_eq_ok_iff_fixed .blockEnc _ _ (by decide) rfl
  case blockDec => exact decode_eq_ok_iff_fixed .blockDec _ _ (by decide) rfl
  case ecb => exact decode_eq_modeInit_iff .ecb _ (by decide)
  case cbc => exact decode_eq_modeInit_iff .cbc _ (by decide)
  case cfb => exact decode_eq_modeInit_iff .cfb _ (by decide)
  case ofb => exact decode_eq_modeInit_iff .ofb _ (by decide)
  case ctr => exact decode_eq_modeInit_iff .ctr _ (by decide)
  case modeEnc => exact decode_eq_ok_iff_fixed .modeEnc _ _ (by decide) rfl
  case modeDec => exact decode_eq_ok_iff_fixed .modeDec _ _ (by decide) rfl

/-! ### The illegal words of R109 -/

/-- The KIND fields that R103 gives a meaning, one by one. -/
theorem kind_lt_five_iff : ∀ k : BitVec 3, k.toNat < 5 ↔ k = 0 ∨ k = 1 ∨ k = 2 ∨ k = 3 ∨ k = 4 := by decide

/-- The words of the ten rows, field by field, in the order of OP: ENGINE_INIT with its two unused fields zero, MODE_INIT
of one of the five kinds with its unused bits zero, and the commands that use no field with every other bit zero. -/
theorem accepted_iff_fields {w : CmdWord} :
    (∃ r ∈ opcodeRows, r.accepts w = true) ↔
      (w.extractLsb' 0 4 = 0x1 ∧ w.extractLsb' 4 12 = 0 ∧ w.extractLsb' 24 8 = 0) ∨
      ((w.extractLsb' 0 4 = 0x2 ∨ w.extractLsb' 0 4 = 0x3) ∧ w.extractLsb' 4 28 = 0) ∨
      (w.extractLsb' 0 4 = 0x4 ∧ (w.extractLsb' 4 3).toNat < 5 ∧ w.extractLsb' 9 23 = 0) ∨
      ((w.extractLsb' 0 4 = 0x5 ∨ w.extractLsb' 0 4 = 0x6) ∧ w.extractLsb' 4 28 = 0) := by
  have hrows : (∃ r ∈ opcodeRows, r.accepts w = true) ↔
      ∃ r ∈ opcodeRows, ∀ f ∈ r.op.fixedFields, w.extractLsb' f.1 f.2 = r.pattern.extractLsb' f.1 f.2 :=
    exists_congr fun r => and_congr_right fun hr => accepts_iff_fixedFields hr
  rw [hrows]
  simp only [opcodeRows, List.mem_cons, List.not_mem_nil, or_false, exists_eq_or_imp, exists_eq_left, forall_eq_or_imp,
    forall_eq, Op.fixedFields, BitVec.reduceExtractLsb']
  simp only [kind_lt_five_iff, BitVec.ofNat_eq_ofNat, or_and_right, and_or_left, or_assoc]

/-- A request whose word no row accepts ends in IllegalCommand, and no register is written (R109). -/
theorem step_of_decode_eq_error {s : State} {r : Request} {rest : List Event} {e : Illegal}
    (hs : shapeOk s.cfg.tables = true) (hp : s.pending = .request r :: rest) (he : decode r.cmd = .error e) :
    step s = .next ((s.accept r rest).respond .illegalCommand []) := by
  rw [step_request hs hp, runWord, he]
  rfl

/-- Settles O5. The refused words are those outside the ten rows; OP then tells the cases apart. -/
theorem illegalWordsRaiseIllegalCommand : Obligations.IllegalWordsRaiseIllegalCommand := by
  refine ⟨fun w => ?_, fun s r rest e hs hp he => ⟨_, step_of_decode_eq_error hs hp he, rfl, rfl, rfl, rfl⟩⟩
  have hrefused : (∃ e, decode w = .error e) ↔ ¬ ∃ r ∈ opcodeRows, r.accepts w = true := by
    simp only [decode_eq_error_iff, not_exists, not_and]
  rw [hrefused, accepted_iff_fields]
  simp only [BitVec.toNat_eq, BitVec.reduceToNat, ne_eq]
  omega

/-! ### The assembler's words -/

/-- ENGINE_INIT's word as a sum: the opcode and ROUNDS share no bit. -/
theorem encode_engineInit (n : Nat) : encode (.engineInit n) = BitVec.ofNat 32 (0x00000001 + n * 2 ^ 16) := by
  have hdisjoint : (0x00000001 : CmdWord) &&& BitVec.ofNat 32 n <<< 16 = 0 := by
    apply BitVec.eq_of_getLsbD_eq
    intro i hi
    by_cases h : i < 16
    · simp [BitVec.getLsbD_shiftLeft, h]
    · have hne : i ≠ 0 := by omega
      simp [BitVec.getLsbD_one, hne]
  calc encode (.engineInit n)
      = (0x00000001 : CmdWord) ||| BitVec.ofNat 32 n <<< 16 := rfl
    _ = (0x00000001 : CmdWord) + BitVec.ofNat 32 n <<< 16 := (BitVec.add_eq_or_of_and_eq_zero _ _ hdisjoint).symm
    _ = BitVec.ofNat 32 (0x00000001 + n * 2 ^ 16) := by
      rw [BitVec.shiftLeft_eq_mul_twoPow, BitVec.ofNat_add, BitVec.ofNat_mul]
      rfl

theorem encode_modeInitInstr (kind : Kind) (ivp strict : Bool) :
    encode (modeInitInstr kind ivp strict) = encodeModeInit kind ivp strict := by
  cases kind <;> rfl

/-- MODE_INIT's word as a sum: the opcode, KIND, IVP and STRICT share no bit. -/
theorem encodeModeInit_eq_sum (kind : Kind) (ivp strict : Bool) :
    encodeModeInit kind ivp strict =
      BitVec.ofNat 32 (0x00000004 + kind.field.toNat * 2 ^ 4 + ivp.toNat * 2 ^ 7 + strict.toNat * 2 ^ 8) := by
  cases kind <;> decide +revert

/-- The assembler refuses a count above 255 and writes any other into ROUNDS (R114). -/
theorem assemble_engineInit (key : Bytes) (n : Nat) : assemble (.engineInit key (some n)) =
    if n ≤ 255 then some [⟨BitVec.ofNat 32 (0x00000001 + n * 2 ^ 16), key, [], []⟩] else none := by
  rw [assemble, asmEngineInit, Option.getD_some, encode_engineInit]
  split <;> rfl

theorem assemble_modeInit (kind : Kind) (iv : Option Bytes) (strict : Bool) : assemble (.modeInit kind iv strict) =
    some [⟨BitVec.ofNat 32 (0x00000004 + kind.field.toNat * 2 ^ 4 + iv.isSome.toNat * 2 ^ 7 + strict.toNat * 2 ^ 8), [],
      iv.getD [], []⟩] := by
  rw [assemble, asmModeInit, encode_modeInitInstr, encodeModeInit_eq_sum]

/-- The numbers of the five kinds (R103). -/
theorem kind_field_toNat : ∀ p ∈ [(Kind.ecb, 0), (.cbc, 1), (.cfb, 2), (.ofb, 3), (.ctr, 4)], p.1.field.toNat = p.2 := by
  decide

/-- Settles O57. The words of the data commands, and of an ENGINE_INIT without `rounds=`, are closed terms. -/
theorem assembledWords : Obligations.AssembledWords := by
  refine ⟨assemble_engineInit, fun key => rfl, fun data => ⟨rfl, rfl, rfl, rfl⟩, fun iv strict kind n hkind => ?_⟩
  have hfield : kind.field.toNat = n := kind_field_toNat (kind, n) hkind
  rw [assemble_modeInit, hfield]

end Sys2Proof

/-! PROOFS. The key schedule of 40_key_schedule.md: the bytes and bits of a normalised key, subkey i as PC-2 of the first
halves rotated by the amounts of rounds 0 to i together, and what the schedule does not depend on. -/

namespace Sys2Proof.Machine

/-! ### The bytes and bits of a normalised key -/

/-- Byte j of NORMKEY is byte j of the key, or 0x00 beyond its end (R140). -/
theorem normKey_getElem? (k : Bytes) {j : Nat} (hj : j < 8) : (normKey k)[j]? = some (k.getD j 0) := by
  rw [List.getD_eq_getElem?_getD]
  unfold normKey
  split
  · have hlt : j < k.length := by omega
    simp [hj, hlt]
  · by_cases hlt : j < k.length
    · simp [List.getElem?_append_left hlt, hlt]
    · have hpad : j - k.length < 8 - k.length := by omega
      simp [List.getElem?_append_right (Nat.le_of_not_lt hlt), hlt, hpad]

/-- Settles O16. -/
theorem normalisedKeyIsTruncatedOrZeroPadded : Obligations.NormalisedKeyIsTruncatedOrZeroPadded :=
  ⟨fun k => ⟨normKey_length k, fun _ hj => normKey_getElem? k hj⟩, rfl, rfl, rfl⟩

theorem bytes8_getElem? (v : Block) {j : Nat} (hj : j < 8) : (bytes8 v)[j]? = some (v.extractLsb' (56 - 8 * j) 8) := by
  interval_cases j <;> rfl

/-- Byte j of an 8-byte string is bits 63 − 8j to 56 − 8j of its BE64 (R15). -/
theorem be64_extractLsb' {b : Bytes} (hb : b.length = 8) {j : Nat} (hj : j < 8) :
    some ((be64 b).extractLsb' (56 - 8 * j) 8) = b[j]? := by
  rw [← bytes8_getElem? _ hj, bytes8_be64 b hb]

/-- DES position n of a normalised key lies in byte (n − 1) / 8 of the key. -/
theorem desPos_normKey (k : Bytes) {n : Nat} (h1 : 1 ≤ n) (h64 : n ≤ 64) :
    desPos (be64 (normKey k)) n = (k.getD ((n - 1) / 8) 0).getLsbD ((64 - n) % 8) := by
  have hj : (n - 1) / 8 < 8 := by omega
  have hbyte : (be64 (normKey k)).extractLsb' (56 - 8 * ((n - 1) / 8)) 8 = k.getD ((n - 1) / 8) 0 :=
    Option.some.inj ((be64_extractLsb' (normKey_length k) hj).trans (normKey_getElem? k hj))
  have hbit : 56 - 8 * ((n - 1) / 8) + (64 - n) % 8 = 64 - n := by omega
  rw [← hbyte, BitVec.getLsbD_extractLsb', hbit, desPos]
  simp [Nat.mod_lt]

/-! ### The rotation of each round -/

/-- The rotation of the rounds before round `i` together (R144). -/
def totalShift (i : Nat) : Nat := ((List.range i).map shiftAmount).sum

@[simp] theorem totalShift_zero : totalShift 0 = 0 := rfl

theorem totalShift_succ (i : Nat) : totalShift (i + 1) = totalShift i + shiftAmount i := List.sum_range_succ shiftAmount i

theorem shiftAmount_lt (i : Nat) : shiftAmount i < 28 := by
  have hall : ∀ r < 16, shiftsTable.getD r 0 < 28 := by decide
  exact hall (i % 16) (Nat.mod_lt i (by decide))

theorem shiftAmount_add_sixteen (i : Nat) : shiftAmount (i + 16) = shiftAmount i := by simp [shiftAmount]

/-- Sixteen rounds rotate the halves once all the way round. -/
theorem totalShift_add_sixteen (i : Nat) : totalShift (i + 16) = totalShift i + 28 := by
  induction i with
  | zero => rfl
  | succ i ih =>
    rw [Nat.add_right_comm, totalShift_succ, ih, shiftAmount_add_sixteen, totalShift_succ]
    omega

/-- A half as round `i` takes it, all rounds before it done. -/
def halfBefore (x : KeyHalf) (i : Nat) : KeyHalf := rol28 x (totalShift i % 28)

theorem rol28_zero_right (x : KeyHalf) : rol28 x 0 = x := by
  have hout : x >>> 28 = 0 := BitVec.ushiftRight_eq_zero (le_refl 28)
  simp [rol28, hout]

theorem halfBefore_zero_right (x : KeyHalf) : halfBefore x 0 = x := rol28_zero_right x

/-- Round `i` rotates the half by its own amount (R144). -/
theorem rol28_halfBefore (x : KeyHalf) (i : Nat) : rol28 (halfBefore x i) (shiftAmount i) = halfBefore x (i + 1) := by
  rw [halfBefore, rol28_rol28 x _ _ (Nat.mod_lt _ (by decide)) (shiftAmount_lt i), Nat.mod_add_mod, ← totalShift_succ,
    halfBefore]

theorem halfBefore_add_sixteen (x : KeyHalf) (i : Nat) : halfBefore x (i + 16) = halfBefore x i := by
  rw [halfBefore, totalShift_add_sixteen, Nat.add_mod_right, halfBefore]

/-! ### The entries of the schedule -/

/-- The subkey that round `i` selects from the halves `c0` and `d0` of PC-1 (R146). -/
def roundSubkey (t : Tables) (c0 d0 : KeyHalf) (i : Nat) : Subkey :=
  subkeyOf t (halfBefore c0 (i + 1)) (halfBefore d0 (i + 1))

theorem scheduleFrom_halfBefore (t : Tables) (c0 d0 : KeyHalf) (n i : Nat) :
    scheduleFrom t n i (halfBefore c0 i) (halfBefore d0 i) = (List.range' i n).map (roundSubkey t c0 d0) := by
  induction n generalizing i with
  | zero => rfl
  | succ n ih => rw [scheduleFrom, rol28_halfBefore, rol28_halfBefore, ih, List.range'_succ, List.map_cons, roundSubkey]

/-- The schedule written out: each round's subkey by itself, none by way of the round before. -/
theorem ks_eq_map (t : Tables) (kb : Bytes) (rounds : Nat) :
    ks t kb rounds = (List.range rounds).map
      (roundSubkey t (initialHalves t (be64 kb)).1 (initialHalves t (be64 kb)).2) := by
  rw [List.range_eq_range', ← scheduleFrom_halfBefore, halfBefore_zero_right, halfBefore_zero_right, ks]

theorem ks_getElem? (t : Tables) (kb : Bytes) {rounds i : Nat} (hi : i < rounds) :
    (ks t kb rounds)[i]? =
      some (roundSubkey t (initialHalves t (be64 kb)).1 (initialHalves t (be64 kb)).2 i) := by
  rw [ks_eq_map, List.getElem?_map, List.getElem?_range hi, Option.map_some]

theorem roundSubkey_periodic (t : Tables) (c0 d0 : KeyHalf) : Function.Periodic (roundSubkey t c0 d0) 16 := fun i => by
  rw [roundSubkey, Nat.add_right_comm, halfBefore_add_sixteen, halfBefore_add_sixteen, roundSubkey]

/-- Settles O19. The bound of 32 rounds is not needed: sixteen rounds rotate the halves by 28. -/
theorem subkeysRepeatWithPeriodSixteen : Obligations.SubkeysRepeatWithPeriodSixteen := by
  refine ⟨fun t kb rounds i hi _ => ?_, by decide +kernel⟩
  have hmod : i % 16 < rounds := lt_of_le_of_lt (Nat.mod_le i 16) hi
  rw [ks_getElem? t kb hi, ks_getElem? t kb hmod, (roundSubkey_periodic t _ _).map_mod_nat]

/-! ### The key bits that PC-1 leaves out -/

/-- PERM reads the positions its table lists and no other. -/
theorem perm_congr {w m : Nat} {table : List Nat} {v v' : BitVec w} (h : ∀ n ∈ table, desPos v n = desPos v' n) :
    perm m table v = perm m table v' := by
  rw [perm, List.map_congr_left h, perm]

/-- The schedule reads the key through PC-1 only (R141, R142). -/
theorem ks_congr {t : Tables} {kb kb' : Bytes} (h : pc1Of t (be64 kb) = pc1Of t (be64 kb')) (rounds : Nat) :
    ks t kb rounds = ks t kb' rounds := by
  have hhalves : initialHalves t (be64 kb) = initialHalves t (be64 kb') := by rw [initialHalves, h, initialHalves]
  rw [ks, hhalves, ks]

/-- PC-1 of DES_STANDARD lists no position of a byte's bit 0, the positions 8, 16, ..., 64. -/
theorem pc1Table_skips_parity : ∀ n ∈ pc1Table, 1 ≤ n ∧ n ≤ 64 ∧ 1 ≤ (64 - n) % 8 := by decide

theorem getLsbD_eq_of_high_bits {x y : Byte} (h : x.extractLsb' 1 7 = y.extractLsb' 1 7) {i : Nat} (h1 : 1 ≤ i)
    (h8 : i < 8) : x.getLsbD i = y.getLsbD i := by
  have hbit := congrArg (fun v => v.getLsbD (i - 1)) h
  simpa [show i - 1 < 7 by omega, show 1 + (i - 1) = i by omega] using hbit

theorem pc1Of_desStandard_congr {k k' : Bytes} (h : ∀ j, (k.getD j 0).extractLsb' 1 7 = (k'.getD j 0).extractLsb' 1 7) :
    pc1Of desStandard (be64 (normKey k)) = pc1Of desStandard (be64 (normKey k')) := by
  refine perm_congr fun n hn => ?_
  obtain ⟨h1, h64, hparity⟩ := pc1Table_skips_parity n hn
  rw [desPos_normKey k h1 h64, desPos_normKey k' h1 h64]
  exact getLsbD_eq_of_high_bits (h _) hparity (Nat.mod_lt _ (by decide))

/-- Beyond the end of two keys of one length both read 0x00, so agreement within them is agreement everywhere. -/
theorem high_bits_agree_everywhere {k k' : Bytes} (hlen : k.length = k'.length)
    (h : ∀ j, j < k.length → (k.getD j 0).extractLsb' 1 7 = (k'.getD j 0).extractLsb' 1 7) (j : Nat) :
    (k.getD j 0).extractLsb' 1 7 = (k'.getD j 0).extractLsb' 1 7 := by
  by_cases hj : j < k.length
  · exact h j hj
  · rw [List.getD_eq_default _ _ (by omega), List.getD_eq_default _ _ (by omega)]

/-- Settles O20. -/
theorem parityBitsOfTheKeyDoNotMatter : Obligations.ParityBitsOfTheKeyDoNotMatter := by
  have hgeneral : ∀ (k k' : Bytes) (rounds : Nat), k.length = k'.length →
      (∀ j, j < k.length → (k.getD j 0).extractLsb' 1 7 = (k'.getD j 0).extractLsb' 1 7) →
      ks desStandard (normKey k) rounds = ks desStandard (normKey k') rounds := fun k k' rounds hlen h =>
    ks_congr (pc1Of_desStandard_congr (high_bits_agree_everywhere hlen h)) rounds
  exact ⟨hgeneral, hgeneral _ _ 16 rfl (by decide)⟩

/-! ### The zero key, and equal subkeys -/

theorem halfBefore_zero_left (i : Nat) : halfBefore 0 i = 0 := by simp [halfBefore, rol28]

theorem roundSubkey_zero_halves (t : Tables) (i : Nat) : roundSubkey t 0 0 i = 0 := by
  rw [roundSubkey, halfBefore_zero_left, subkeyOf]
  exact perm_zero 48 t.pc2

theorem initialHalves_zero_key (t : Tables) : initialHalves t 0 = (0, 0) := by
  rw [initialHalves, pc1Of, perm_zero]
  rfl

/-- The zero key gives the subkey 0 in every round, under every TABLES (R151). -/
theorem ks_zero_key (t : Tables) {kb : Bytes} (h : be64 kb = 0) (rounds : Nat) : ks t kb rounds = List.replicate rounds 0 := by
  rw [ks_eq_map, h, initialHalves_zero_key, List.map_congr_left fun i _ => roundSubkey_zero_halves t i, List.map_const',
    List.length_range]

theorem reverse_of_all_equal {keys : List Subkey} (h : ∀ k ∈ keys, ∀ k' ∈ keys, k = k') : keys.reverse = keys := by
  cases keys with
  | nil => rfl
  | cons k keys =>
    have hreplicate : k :: keys = List.replicate (keys.length + 1) k :=
      List.eq_replicate_iff.mpr ⟨rfl, fun k' hk' => h k' hk' k List.mem_cons_self⟩
    rw [hreplicate, List.reverse_replicate]

/-- Equal subkeys taken in reverse order are the same list, so the directions agree (R195). -/
theorem cipher_enc_eq_dec {keys : List Subkey} (h : ∀ k ∈ keys, ∀ k' ∈ keys, k = k') (c : Config) (b : Block) :
    cipher c .enc keys b = cipher c .dec keys b := by
  rw [cipher, cipher, Dir.order, Dir.order, reverse_of_all_equal h]

/-- R151's value: sixteen rounds of the subkey 0 on the zero block. -/
theorem cipher_zero_subkeys : cipher presetConfig .enc (List.replicate 16 0) 0 = 0x1C2087FCBBEA0DC2 := by decide +kernel

/-- Settles O26. The empty key normalises to the zero key, whose subkeys are all 0 and so equal. -/
theorem equalSubkeysMakeDirectionsAgree : Obligations.EqualSubkeysMakeDirectionsAgree := by
  have hzero : ∀ rounds, ks desStandard (normKey []) rounds = List.replicate rounds 0 := ks_zero_key desStandard rfl
  have hequal : ∀ k ∈ List.replicate 16 (0 : Subkey), ∀ k' ∈ List.replicate 16 (0 : Subkey), k = k' := fun _ hk _ hk' =>
    (List.eq_of_mem_replicate hk).trans (List.eq_of_mem_replicate hk').symm
  refine ⟨hzero, fun c keys b h => cipher_enc_eq_dec h c b, ?_, ?_⟩
  · rw [hzero, cipher_zero_subkeys]
  · rw [hzero, ← cipher_enc_eq_dec hequal, cipher_zero_subkeys]

end Sys2Proof.Machine

/-! PROOFS. The round function and the block commands of 41_round_engine.md: the nibbles of SUB, and that a block command of
one direction gives back the block that the other direction answered for. -/

namespace Sys2Proof.Machine

/-! ### The block commands undo each other -/

/-- What carries an inverse of the primitive to the commands: both directions read one engine, and BE64 undoes BYTES8. -/
theorem blockCommand_inverse {s : State} {keys : List Subkey} {dir dir' : Dir} (hv : s.regs.engineValid = true)
    (hlen : s.dataIn.length = 8) (hk : s.regs.readEngine = .ok keys)
    (hinv : ∀ b, cipher s.cfg dir' keys (cipher s.cfg dir keys b) = b) :
    ∃ out : Bytes, blockCommand dir s = s.answering 0x00 out ∧
      blockCommand dir' { s with dataIn := out } = State.answering { s with dataIn := out } 0x00 s.dataIn := by
  refine ⟨_, blockCommand_ok dir hv hlen hk, ?_⟩
  have hback := blockCommand_ok
    (s := { s with dataIn := bytes8 (cipher s.cfg dir keys (be64 s.dataIn)) }) dir' hv (bytes8_length _) hk
  rwa [be64_bytes8, hinv, bytes8_be64 _ hlen] at hback

/-- Settles O25. The induction over the subkeys is `rounds_reverse`, by way of `cipher_dec_enc` and `cipher_enc_dec`. -/
theorem blockCommandsAreInverse : Obligations.BlockCommandsAreInverse := by
  refine ⟨fun s h hv hlen => ?_, fun c keys b => ⟨cipher_dec_enc c keys b, cipher_enc_dec c keys b⟩⟩
  obtain ⟨keys, hk⟩ := readEngine_exists h hv
  obtain ⟨c, henc, hdec⟩ := blockCommand_inverse hv hlen hk (cipher_dec_enc s.cfg keys)
  obtain ⟨p, hdec', henc'⟩ := blockCommand_inverse hv hlen hk (cipher_enc_dec s.cfg keys)
  exact ⟨c, p, henc, hdec, hdec', henc'⟩

/-! ### The substitution layer -/

/-- Nibbles concatenated first to last: nibble `j` of `n` is the hexadecimal digit with `n − 1 − j` digits below it. -/
theorem concat_nibbles_digit (f : Nat → BitVec 4) {n j : Nat} (hj : j < n) :
    (List.range n).foldl (fun acc i => 16 * acc + (f i).toNat) 0 / 16 ^ (n - 1 - j) % 16 = (f j).toNat := by
  induction n with
  | zero => omega
  | succ n ih =>
    have hnibble : (f n).toNat < 16 := (f n).isLt
    rw [List.range_succ, List.foldl_append, List.foldl_cons, List.foldl_nil]
    rcases Nat.lt_succ_iff_lt_or_eq.mp hj with hlt | rfl
    · have hbelow : n + 1 - 1 - j = 1 + (n - 1 - j) := by omega
      rw [hbelow, pow_add, ← Nat.div_div_eq_div_mul, pow_one, Nat.mul_add_div (by decide), Nat.div_eq_of_lt hnibble,
        Nat.add_zero, ih hlt]
    · rw [Nat.add_sub_cancel, Nat.sub_self, pow_zero, Nat.div_one, Nat.mul_add_mod, Nat.mod_eq_of_lt hnibble]

/-- Nibble `j` of SUB, in bits 31 − 4j to 28 − 4j, is what S-box j+1 gives for group `j` (R185). -/
theorem sub_extractLsb' (t : Tables) (x : BitVec 48) {j : Nat} (hj : j < 8) :
    (sub t x).extractLsb' (28 - 4 * j) 4 = sboxLookup t j (group x j) := by
  apply BitVec.eq_of_toNat_eq
  rw [← concat_nibbles_digit (fun i => sboxLookup t i (group x i)) hj, BitVec.extractLsb'_toNat, sub, BitVec.toNat_ofNat,
    Nat.shiftRight_eq_div_pow]
  generalize (List.range 8).foldl _ 0 = a
  have hwidth : 2 ^ 32 = 2 ^ (28 - 4 * j) * 2 ^ (4 + 4 * j) := by rw [← pow_add]; congr 1; omega
  have hdvd : 2 ^ 4 ∣ 2 ^ (4 + 4 * j) := pow_dvd_pow 2 (Nat.le_add_right 4 (4 * j))
  have hplace : 16 ^ (8 - 1 - j) = 2 ^ (28 - 4 * j) := by
    rw [show 16 = 2 ^ 4 from rfl, ← pow_mul]; congr 1; omega
  rw [hwidth, Nat.mod_mul_right_div_self, Nat.mod_mod_of_dvd _ hdvd, hplace]
  rfl

/-- Bit `i` of group `j` (R182). -/
theorem group_getLsbD (x : BitVec 48) (j : Nat) {i : Nat} (hi : i < 6) :
    (group x j).getLsbD i = x.getLsbD (42 - 6 * j + i) := by
  simp [group, hi]

theorem toNat_eq_sum_of_bits : ∀ v : BitVec 4,
    v.toNat = 8 * (v.getLsbD 3).toNat + 4 * (v.getLsbD 2).toNat + 2 * (v.getLsbD 1).toNat + (v.getLsbD 0).toNat := by
  decide

/-- The row, by the positions of the outer bits in X (R182, R183). -/
theorem sboxRow_group (x : BitVec 48) {j : Nat} (hj : j < 8) :
    sboxRow (group x j) = 2 * (x.getLsbD (47 - 6 * j)).toNat + (x.getLsbD (42 - 6 * j)).toNat := by
  have hhigh : 42 - 6 * j + 5 = 47 - 6 * j := by omega
  rw [sboxRow, group_getLsbD x j (by decide), group_getLsbD x j (by decide), hhigh, Nat.add_zero]

/-- The column, by the positions of the inner bits in X (R182, R183). -/
theorem sboxCol_group (x : BitVec 48) {j : Nat} (hj : j < 8) :
    sboxCol (group x j) = 8 * (x.getLsbD (46 - 6 * j)).toNat + 4 * (x.getLsbD (45 - 6 * j)).toNat +
      2 * (x.getLsbD (44 - 6 * j)).toNat + (x.getLsbD (43 - 6 * j)).toNat := by
  have hinner : ∀ i < 4, ((group x j).extractLsb' 1 4).getLsbD i = x.getLsbD (43 - 6 * j + i) := fun i hi => by
    have hplace : 42 - 6 * j + (1 + i) = 43 - 6 * j + i := by omega
    rw [BitVec.getLsbD_extractLsb', group_getLsbD x j (by omega), hplace]
    simp [hi]
  have h3 : 43 - 6 * j + 3 = 46 - 6 * j := by omega
  have h2 : 43 - 6 * j + 2 = 45 - 6 * j := by omega
  have h1 : 43 - 6 * j + 1 = 44 - 6 * j := by omega
  rw [sboxCol, toNat_eq_sum_of_bits, hinner 3 (by decide), hinner 2 (by decide), hinner 1 (by decide), hinner 0 (by decide),
    h3, h2, h1, Nat.add_zero]

/-- Settles O21. -/
theorem substitutionLooksUpEachGroup : Obligations.SubstitutionLooksUpEachGroup := by
  intro t x j hj row col
  rw [sub_extractLsb' t x hj, sboxLookup, sboxRow_group x hj, sboxCol_group x hj]

end Sys2Proof.Machine

/-! PROOFS. The padding of 42_modes.md: what PAD appends, and what lenient unpadding answers by the last byte. -/

namespace Sys2Proof.Machine

/-! ### What PAD appends -/

theorem length_add_padCount_mod_eight (d : Bytes) : (d.length + padCount d) % 8 = 0 := by unfold padCount; omega

theorem pad_length_ne (d : Bytes) : (pad d).length ≠ d.length := by rw [pad_length]; omega

/-- One byte short of a whole block, PAD appends the single byte 0x01. -/
theorem pad_of_length_seven {d : Bytes} (h : d.length = 7) : pad d = d ++ [0x01] := by
  have hcount : padCount d = 1 := by rw [padCount, h]
  rw [pad, hcount]
  rfl

/-- Settles O41. The count is `padCount`. -/
theorem paddingFillsTheLastBlock : Obligations.PaddingFillsTheLastBlock :=
  ⟨fun d => ⟨padCount d, padCount_pos d, padCount_le d, length_add_padCount_mod_eight d, rfl, pad_length d,
    pad_length_ne d⟩, rfl, rfl, fun _ h => pad_of_length_seven h⟩

/-! ### Lenient unpadding, by the last byte -/

@[simp] theorem unpadLenient_nil : unpadLenient [] = [] := rfl

/-- The last byte and the length decide; the bytes before are only copied (R231). -/
theorem unpadLenient_concat (w : Bytes) (n : Byte) :
    unpadLenient (w ++ [n]) =
      if 1 ≤ n.toNat ∧ n.toNat ≤ 8 ∧ n.toNat ≤ w.length + 1 then (w ++ [n]).take (w.length + 1 - n.toNat) else w ++ [n] := by
  rw [unpadLenient, List.getLast?_concat, List.length_append, List.length_singleton]

/-- A padding count n takes the last n bytes, itself among them. -/
theorem unpadLenient_concat_of_count {w : Bytes} {n : Byte} (h1 : 1 ≤ n.toNat) (h8 : n.toNat ≤ 8)
    (hlen : n.toNat ≤ w.length + 1) : unpadLenient (w ++ [n]) = w.take (w.length + 1 - n.toNat) := by
  have hkept : w.length + 1 - n.toNat ≤ w.length := by omega
  rw [unpadLenient_concat, if_pos ⟨h1, h8, hlen⟩, List.take_append_of_le_length hkept]

/-- A last byte that is no padding count stays, with everything before it. -/
theorem unpadLenient_concat_of_no_count {w : Bytes} {n : Byte}
    (h : n.toNat = 0 ∨ 8 < n.toNat ∨ w.length + 1 < n.toNat) : unpadLenient (w ++ [n]) = w ++ [n] := by
  have hno : ¬(1 ≤ n.toNat ∧ n.toNat ≤ 8 ∧ n.toNat ≤ w.length + 1) := by omega
  rw [unpadLenient_concat, if_neg hno]

/-- Settles O42. -/
theorem lenientUnpaddingLooksAtTheLastByte : Obligations.LenientUnpaddingLooksAtTheLastByte :=
  ⟨unpadLenient_nil, fun _ _ => unpadLenient_concat_of_count, fun _ _ => unpadLenient_concat_of_no_count, rfl, rfl⟩

end Sys2Proof.Machine

/-! PROOFS. The exceptions of 60_exceptions.md: what a cause answers, and which cause an answer tells of. -/

namespace Sys2Proof.Machine

/-! ### InvalidRounds -/

/-- R304's cause raises R304's exception, and the count is not brought into the range. -/
theorem execEngineInit_of_illegal_count {rounds : Nat} (s : State) (h : rounds < 8 ∨ 32 < rounds) :
    execEngineInit rounds s = raise .invalidRounds s := by
  have hillegal : ¬(8 ≤ rounds ∧ rounds ≤ 32) := by omega
  rw [execEngineInit, if_neg hillegal]

/-- The other direction of R304: an answer with InvalidRounds is no legal count's, since that answers OK (R148). -/
theorem illegal_count_of_execEngineInit_answer {rounds : Nat} {s t : State} {out : Bytes}
    (h : execEngineInit rounds s = .next t) (hresponse : t.response = some ⟨Status.invalidRounds.code, out⟩) :
    rounds < 8 ∨ 32 < rounds := by
  rcases execEngineInit_cases h with ⟨-, -, rfl⟩ | ⟨hillegal, -⟩
  · have hok : Status.ok.code = Status.invalidRounds.code := by
      rw [respond_response, Option.some.injEq, Response.mk.injEq] at hresponse
      exact hresponse.1
    exact absurd hok (by decide)
  · omega

/-- Settles O15. ENGINE_INIT is `execEngineInit`, and the two parts are the two directions of R304. -/
theorem invalidRoundsIsRejectedNotClamped : Obligations.InvalidRoundsIsRejectedNotClamped :=
  fun s _ => ⟨execEngineInit_of_illegal_count s, fun _ _ => illegal_count_of_execEngineInit_answer⟩

end Sys2Proof.Machine

/-! PROOFS. The round trip between instructions and command words (30_encoding.md R107, R114): a row's pattern and its
variable fields are all of a word the row accepts. -/

namespace Sys2Proof

open Sys2Proof.Machine

/-! ### The word of an instruction decodes to it -/

/-- The row of ENGINE_INIT accepts the word of every round count that fits the field, and reads the count back. -/
theorem decode_encode_engineInit {n : Nat} (h : n ≤ 255) : decode (encode (.engineInit n)) = .ok (.engineInit n) := by
  have hrow : ⟨.engineInit, 0x00000001, 0xFF00FFFF⟩ ∈ opcodeRows := by decide
  rw [decode_eq_engineInit_iff, encode_engineInit]
  constructor
  · rw [← accepts_iff (r := ⟨.engineInit, 0x00000001, 0xFF00FFFF⟩), accepts_iff_fixedFields hrow]
    simp [Op.fixedFields, BitVec.toNat_eq]
    omega
  · simp
    omega

theorem decode_encode_modeInit (kind : Kind) (ivp strict : Bool) :
    decode (encode (modeInitInstr kind ivp strict)) = .ok (modeInitInstr kind ivp strict) := by
  cases kind <;> decide +revert

/-- Settles O1. Only ENGINE_INIT has a field that can be too wide, and well-formedness bounds it. -/
theorem encodedInstructionDecodesToItself : Obligations.EncodedInstructionDecodesToItself := by
  intro i hwf
  cases i with
  | engineInit n => exact decode_encode_engineInit (of_decide_eq_true hwf)
  | modeInitEcb v t => exact decode_encode_modeInit .ecb v t
  | modeInitCbc v t => exact decode_encode_modeInit .cbc v t
  | modeInitCfb v t => exact decode_encode_modeInit .cfb v t
  | modeInitOfb v t => exact decode_encode_modeInit .ofb v t
  | modeInitCtr v t => exact decode_encode_modeInit .ctr v t
  | blockEnc | blockDec | modeEnc | modeDec => rfl

/-! ### A decoded word is the encoding of its instruction -/

/-- The fields that a command's row leaves variable, next to `Op.fixedFields` (R107's last column). -/
def Op.variableFields : Op → List (Nat × Nat)
  | .engineInit => [(16, 8)]
  | .modeInit _ => [(7, 1), (8, 1)]
  | .blockEnc | .blockDec | .modeEnc | .modeDec => []

/-- The fixed and the variable fields of a command cover its word. -/
theorem fields_cover (op : Op) (i : Fin 32) : inFields (op.fixedFields ++ op.variableFields) i = true := by
  cases op with
  | modeInit kind => cases kind <;> decide +revert
  | _ => decide +revert

/-- A word is made of its fields. -/
theorem eq_of_fields_eq {w v : CmdWord} {fields : List (Nat × Nat)} (hcover : ∀ i : Fin 32, inFields fields i = true)
    (h : ∀ f ∈ fields, w.extractLsb' f.1 f.2 = v.extractLsb' f.1 f.2) : w = v := by
  apply BitVec.eq_of_getLsbD_eq
  intro i hi
  obtain ⟨f, hf, hlo, hhi⟩ := inFields_iff.mp (hcover ⟨i, hi⟩)
  exact extractLsb'_eq_iff.mp (h f hf) i hlo hhi

theorem extractLsb'_one_eq {w v : CmdWord} {j : Nat} (h : w.getLsbD j = v.getLsbD j) :
    w.extractLsb' j 1 = v.extractLsb' j 1 := by
  refine extractLsb'_eq_iff.mpr fun i hlo hhi => ?_
  rwa [show i = j by omega]

/-- What a row builds from a word tells the word's variable fields. -/
theorem variableFields_eq_of_build_eq {op : Op} {w v : CmdWord} (h : op.build w = op.build v) :
    ∀ f ∈ op.variableFields, w.extractLsb' f.1 f.2 = v.extractLsb' f.1 f.2 := by
  cases op with
  | engineInit =>
    have hrounds : w.extractLsb' 16 8 = v.extractLsb' 16 8 := BitVec.eq_of_toNat_eq (Instr.engineInit.inj h)
    simpa [Op.variableFields] using hrounds
  | modeInit kind =>
    obtain ⟨hivp, hstrict⟩ := modeInitInstr_inj.mp h
    simpa [Op.variableFields] using ⟨extractLsb'_one_eq hivp, extractLsb'_one_eq hstrict⟩
  | blockEnc | blockDec | modeEnc | modeDec => simp [Op.variableFields]

/-- No two words decode to one instruction: it names its row, the row's pattern fixes the fixed fields, and the
instruction's arguments are the variable ones. -/
theorem decode_inj {w v : CmdWord} {i : Instr} (hw : decode w = .ok i) (hv : decode v = .ok i) : w = v := by
  obtain ⟨r, hr, haccw, rfl⟩ := decode_eq_ok_iff.mp hw
  obtain ⟨r', hr', haccv, hbuild⟩ := decode_eq_ok_iff.mp hv
  have hop : r'.op = r.op := by rw [← op_build r'.op v, hbuild, op_build]
  obtain rfl := row_eq_of_op_eq r' hr' r hr hop
  refine eq_of_fields_eq (fields_cover r'.op) fun f hf => ?_
  rcases List.mem_append.mp hf with hfixed | hvar
  · rw [(accepts_iff_fixedFields hr).mp haccw f hfixed, (accepts_iff_fixedFields hr).mp haccv f hfixed]
  · exact variableFields_eq_of_build_eq hbuild.symm f hvar

theorem build_wf (op : Op) (w : CmdWord) : (op.build w).wf = true := by
  cases op with
  | engineInit => exact decide_eq_true (Nat.le_of_lt_succ (w.extractLsb' 16 8).isLt)
  | modeInit kind => cases kind <;> rfl
  | blockEnc | blockDec | modeEnc | modeDec => rfl

/-- Settles O2. The word and the encoding of its instruction decode alike. -/
theorem decodedWordIsTheEncodingOfItsInstruction : Obligations.DecodedWordIsTheEncodingOfItsInstruction := by
  intro w i h
  have hwf : i.wf = true := by
    obtain ⟨r, -, -, rfl⟩ := decode_eq_ok_iff.mp h
    exact build_wf r.op w
  exact ⟨hwf, decode_inj (encodedInstructionDecodesToItself i hwf) h⟩

/-- Settles O4: fourteen closed words. -/
theorem sampleWordsDecode : Obligations.SampleWordsDecode := by
  unfold Obligations.SampleWordsDecode
  decide

end Sys2Proof

/-! PROOFS. The answers of each command, one equation per case of R148, R192, R193 and R235 to R237, in the order in which
the command makes its checks (60_exceptions.md R313). The completing cases of the data commands stand in
Laws/Commands.lean. -/

namespace Sys2Proof.Machine

/-! ### ENGINE_INIT and the block commands -/

theorem execEngineInit_ok {n : Nat} (s : State) (h8 : 8 ≤ n) (h32 : n ≤ 32) :
    execEngineInit n s = returnOk [] (s.withRegs (s.regs.buildEngine s.cfg.tables (normKey s.keyIn) n)) := by
  rw [execEngineInit, if_pos ⟨h8, h32⟩]

section BlockCommand
variable {s : State} (dir : Dir)

theorem blockCommand_noEngine (hv : s.regs.engineValid = false) : blockCommand dir s = raise .noEngine s := by
  rw [blockCommand, if_pos hv]

theorem blockCommand_invalidBlockLength (hv : s.regs.engineValid = true) (hlen : s.dataIn.length ≠ 8) :
    blockCommand dir s = raise .invalidBlockLength s := by
  rw [blockCommand, if_neg (by simp [hv]), if_pos hlen]

theorem blockCommand_fault {why : Fault} (hv : s.regs.engineValid = true) (hlen : s.dataIn.length = 8)
    (hk : s.regs.readEngine = .error why) : blockCommand dir s = .fault why := by
  rw [blockCommand, if_neg (by simp [hv]), if_neg (by simp [hlen]), hk]

end BlockCommand

/-! ### MODE_INIT -/

section ModeInit
variable {s : State} {kind : Kind} (ivp strict : Bool)

theorem modeInit_noEngine (kind : Kind) (hv : s.regs.engineValid = false) :
    modeInit kind ivp strict s = raise .noEngine s := by
  rw [modeInit, if_pos hv]

theorem modeInit_ecb (hv : s.regs.engineValid = true) :
    modeInit .ecb ivp strict s = returnOk [] (s.withRegs (s.regs.bindMode .ecb strict)) := by
  rw [modeInit, if_neg (by simp [hv]), if_pos rfl]

theorem modeInit_missingIV (hv : s.regs.engineValid = true) (hkind : kind ≠ .ecb) :
    modeInit kind false strict s = raise .missingIV s := by
  rw [modeInit, if_neg (by simp [hv]), if_neg hkind, if_pos rfl]

theorem modeInit_invalidIVLength (hv : s.regs.engineValid = true) (hkind : kind ≠ .ecb) (hlen : s.ivIn.length ≠ 8) :
    modeInit kind true strict s = raise .invalidIVLength s := by
  rw [modeInit, if_neg (by simp [hv]), if_neg hkind, if_neg (by simp), if_pos hlen]

theorem modeInit_chained (hv : s.regs.engineValid = true) (hkind : kind ≠ .ecb) (hlen : s.ivIn.length = 8) :
    modeInit kind true strict s = returnOk [] (s.withRegs ((s.regs.setIv (be64 s.ivIn)).bindMode kind strict)) := by
  rw [modeInit, if_neg (by simp [hv]), if_neg hkind, if_neg (by simp), if_neg (by simp [hlen]), memRead_whole _ hlen]

end ModeInit

/-! ### MODE_ENC -/

section ModeEnc
variable {s : State} {b : Binding} {why : Fault}

theorem execModeEnc_noMode (hv : s.regs.modeValid = false) : execModeEnc s = raise .noMode s := by
  rw [execModeEnc, if_pos hv]

theorem execModeEnc_dataTooLong (hv : s.regs.modeValid = true) (hlen : s.cfg.maxDataLen < s.dataIn.length) :
    execModeEnc s = raise .dataTooLong s := by
  rw [execModeEnc, if_neg (by simp [hv]), if_pos hlen]

theorem execModeEnc_binding_fault (hv : s.regs.modeValid = true) (hlen : s.dataIn.length ≤ s.cfg.maxDataLen)
    (hb : s.regs.readBinding = .error why) : execModeEnc s = .fault why := by
  rw [execModeEnc, if_neg (by simp [hv]), if_neg (by omega), hb]

theorem execModeEnc_counterOverflow (hv : s.regs.modeValid = true) (hlen : s.dataIn.length ≤ s.cfg.maxDataLen)
    (hb : s.regs.readBinding = .ok b) (hc : counterOverflows s.cfg.ctrOverflow (s.dataIn.length / 8 + 1) b = true) :
    execModeEnc s = raise .counterOverflow s := by
  have hn : (blocks (pad s.dataIn)).length = s.dataIn.length / 8 + 1 := by simp
  simp only [execModeEnc, hv, hb, hn, hc]
  rw [if_neg (by simp), if_neg (by omega), if_pos trivial]

theorem execModeEnc_engine_fault (hv : s.regs.modeValid = true) (hlen : s.dataIn.length ≤ s.cfg.maxDataLen)
    (hb : s.regs.readBinding = .ok b) (hc : counterOverflows s.cfg.ctrOverflow (s.dataIn.length / 8 + 1) b = false)
    (hk : s.regs.readEngine = .error why) : execModeEnc s = .fault why := by
  have hn : (blocks (pad s.dataIn)).length = s.dataIn.length / 8 + 1 := by simp
  simp only [execModeEnc, hv, hb, hn, hc, hk]
  rw [if_neg (by simp), if_neg (by omega), if_neg (by simp)]

end ModeEnc

/-! ### MODE_DEC -/

section ModeDec
variable {s : State} {b : Binding} {why : Fault}

theorem execModeDec_noMode (hv : s.regs.modeValid = false) : execModeDec s = raise .noMode s := by
  rw [execModeDec, if_pos hv]

theorem execModeDec_dataTooLong (hv : s.regs.modeValid = true) (hlen : s.cfg.maxDataLen < s.dataIn.length) :
    execModeDec s = raise .dataTooLong s := by
  rw [execModeDec, if_neg (by simp [hv]), if_pos hlen]

theorem execModeDec_invalidBlockLength (hv : s.regs.modeValid = true) (hlen : s.dataIn.length ≤ s.cfg.maxDataLen)
    (h8 : s.dataIn.length % 8 ≠ 0) : execModeDec s = raise .invalidBlockLength s := by
  rw [execModeDec, if_neg (by simp [hv]), if_neg (by omega), if_pos h8]

theorem execModeDec_binding_fault (hv : s.regs.modeValid = true) (hlen : s.dataIn.length ≤ s.cfg.maxDataLen)
    (h8 : s.dataIn.length % 8 = 0) (hb : s.regs.readBinding = .error why) : execModeDec s = .fault why := by
  rw [execModeDec, if_neg (by simp [hv]), if_neg (by omega), if_neg (by simp [h8]), hb]

theorem execModeDec_counterOverflow (hv : s.regs.modeValid = true) (hlen : s.dataIn.length ≤ s.cfg.maxDataLen)
    (h8 : s.dataIn.length % 8 = 0) (hb : s.regs.readBinding = .ok b)
    (hc : counterOverflows s.cfg.ctrOverflow (s.dataIn.length / 8) b = true) :
    execModeDec s = raise .counterOverflow s := by
  simp only [execModeDec, hv, hb, blocks_length, hc]
  rw [if_neg (by simp), if_neg (by omega), if_neg (by simp [h8]), if_pos trivial]

theorem execModeDec_engine_fault (hv : s.regs.modeValid = true) (hlen : s.dataIn.length ≤ s.cfg.maxDataLen)
    (h8 : s.dataIn.length % 8 = 0) (hb : s.regs.readBinding = .ok b)
    (hc : counterOverflows s.cfg.ctrOverflow (s.dataIn.length / 8) b = false)
    (hk : s.regs.readEngine = .error why) : execModeDec s = .fault why := by
  simp only [execModeDec, hv, hb, blocks_length, hc, hk]
  rw [if_neg (by simp), if_neg (by omega), if_neg (by simp [h8]), if_neg (by simp)]

theorem execModeDec_strict_fault {keys : List Subkey} (hv : s.regs.modeValid = true)
    (hlen : s.dataIn.length ≤ s.cfg.maxDataLen) (h8 : s.dataIn.length % 8 = 0) (hb : s.regs.readBinding = .ok b)
    (hc : counterOverflows s.cfg.ctrOverflow (s.dataIn.length / 8) b = false)
    (hk : s.regs.readEngine = .ok keys) (hs : s.regs.modeStrict = .unwritten) :
    execModeDec s = .fault (.readUnwritten .modeStrict) := by
  simp only [execModeDec, hv, hb, blocks_length, hc, hk, hs, read_unwritten]
  rw [if_neg (by simp), if_neg (by omega), if_neg (by simp [h8]), if_neg (by simp)]

end ModeDec

/-! ### The counter check of R245 -/

theorem counterOverflows_ctr_iff {overflow : CtrOverflow} {nb : Nat} {iv : Block} :
    counterOverflows overflow nb (.ctr iv) = true ↔ overflow = .fault ∧ 0 < nb ∧ 2 ^ 64 ≤ iv.toNat + (nb - 1) := by
  simp only [counterOverflows, decide_eq_true_eq]
  tauto

/-- A CTR message whose counter stays in range, and every message of another kind, passes the check. -/
theorem counterOverflows_eq_false {s : State} {nb : Nat} {b : Binding} (h : ∀ iv, b = .ctr iv → CtrInRange s iv nb) :
    counterOverflows s.cfg.ctrOverflow nb b = false := by
  cases b with
  | ctr iv =>
    rw [← Bool.not_eq_true, counterOverflows_ctr_iff]
    rintro ⟨hfault, -, hlarge⟩
    exact absurd (h iv rfl hfault) (Nat.not_lt.mpr hlarge)
  | ecb | cbc iv | cfb iv | ofb iv => rfl

/-- `counterOverflows_eq_false` for the binding that the registers hold. -/
theorem counterOverflows_of_counterInRange {s : State} {nb : Nat} {b : Binding} (hb : s.regs.readBinding = .ok b)
    (h : CounterInRange s nb) : counterOverflows s.cfg.ctrOverflow nb b = false := by
  refine counterOverflows_eq_false fun iv hctr => ?_
  obtain ⟨hkind, hiv⟩ := readBinding_ctr (hctr ▸ hb)
  exact h iv hkind hiv

/-! ### The engine and the binding that the registers hold -/

/-- The engine that ENGINE_INIT builds reads as its schedule. -/
theorem readEngine_buildEngine (t : Tables) {kb : Bytes} {n : Nat} (r : Regs) (hkb : kb.length = 8) (h8 : 8 ≤ n)
    (h32 : n ≤ 32) : (r.buildEngine t kb n).readEngine = .ok (ks t kb n) := by
  have hn : (BitVec.ofNat 6 n).toNat = n := by rw [BitVec.toNat_ofNat, Nat.mod_eq_of_lt (by omega)]
  rw [readEngine_built (engineBuilt_buildEngine t kb n r hkb h8 h32) (buildEngine_key t kb n r)
    (buildEngine_rounds t kb n r), bytes8_be64 kb hkb, hn]

theorem readBinding_of_kind {r : Regs} {kind : Kind} (h : r.modeKind = .holds kind) :
    r.readBinding = r.readBindingOf kind := by
  rw [Regs.readBinding, h, read_holds]

theorem readBinding_ecb {r : Regs} (h : r.modeKind = .holds .ecb) : r.readBinding = .ok .ecb :=
  readBinding_of_kind h

/-- The binding of a kind and an IV value, which ECB does not take (R38, R40). -/
def Binding.ofKind : Kind → Block → Binding
  | .ecb, _ => .ecb
  | .cbc, iv => .cbc iv
  | .cfb, iv => .cfb iv
  | .ofb, iv => .ofb iv
  | .ctr, iv => .ctr iv

theorem readBinding_iv {r : Regs} {kind : Kind} {iv : Block} (hkind : r.modeKind = .holds kind)
    (hiv : r.iv = .holds iv) : r.readBinding = .ok (.ofKind kind iv) := by
  rw [readBinding_of_kind hkind, readBindingOf_iv hiv]
  cases kind <;> rfl

end Sys2Proof.Machine

/-! PROOFS. What a command does, apart from the state it is done to: one `Effect` per way a command can end. Two states
that agree in what a command reads give it one effect, which says in one lemma what no command looks at. -/

namespace Sys2Proof.Machine

/-! ### Effects -/

/-- How a command ends: it stops, raises an error (R300), answers OK with bytes and no register written (R302), builds an
engine (R148), or binds a mode, under ECB without an IV (R235). -/
inductive Effect where
  | stop (why : Fault)
  | fail (error : Status)
  | answer (out : Bytes)
  | build (kb : Bytes) (rounds : Nat)
  | bindEcb (strict : Bool)
  | bindChained (kind : Kind) (iv : Block) (strict : Bool)

/-- The effect done to a state. -/
def Effect.on : Effect → State → Result
  | .stop why, _ => .fault why
  | .fail error, s => raise error s
  | .answer out, s => returnOk out s
  | .build kb rounds, s => returnOk [] (s.withRegs (s.regs.buildEngine s.cfg.tables kb rounds))
  | .bindEcb strict, s => returnOk [] (s.withRegs (s.regs.bindMode .ecb strict))
  | .bindChained kind iv strict, s => returnOk [] (s.withRegs ((s.regs.setIv iv).bindMode kind strict))

/-- A read that a command makes past its check of the valid bits faults (R46): of the engine, of the binding, or of
MODE_STRICT. -/
def ReadFails (s : State) (why : Fault) : Prop :=
  (s.regs.engineValid = true ∨ s.regs.modeValid = true) ∧ s.regs.readEngine = .error why ∨
  s.regs.modeValid = true ∧ (s.regs.readBinding = .error why ∨ s.regs.modeStrict.read .modeStrict = .error why)

/-- What stands in a state when a command has the effect on it: a command stops only where a read faults, and a mode is
bound only beside an engine (R235, R37). -/
def Effect.Allowed (s : State) : Effect → Prop
  | .stop why => ReadFails s why
  | .bindEcb _ | .bindChained _ _ _ => s.regs.engineValid = true
  | .fail _ | .answer _ | .build _ _ => True

/-- Two states hold the same bytes in the operand buffers that a command reads (R110). -/
def SameOperands : Instr → State → State → Prop
  | .engineInit _, s, u => u.keyIn = s.keyIn
  | .modeInitEcb _ _, _, _ => True
  | .modeInitCbc ivp _, s, u | .modeInitCfb ivp _, s, u | .modeInitOfb ivp _, s, u | .modeInitCtr ivp _, s, u =>
    ivp = true → u.ivIn = s.ivIn
  | .blockEnc, s, u | .blockDec, s, u | .modeEnc, s, u | .modeDec, s, u => u.dataIn = s.dataIn

/-! ### States that agree wherever a valid bit guards a register -/

theorem sameToTheHost_of_regs {s u : State} (hcfg : s.cfg = u.cfg) (hregs : s.regs = u.regs) : SameToTheHost s u where
  cfg := hcfg
  engineValid := by rw [hregs]
  modeValid := by rw [hregs]
  engine _ := by rw [hregs]; exact ⟨rfl, rfl⟩
  mode _ := by rw [hregs]; exact ⟨rfl, rfl, fun _ => rfl⟩

theorem sameToTheHost_refl (s : State) : SameToTheHost s s := sameToTheHost_of_regs rfl rfl

section SameToTheHost
variable {s u : State} (h : SameToTheHost s u)
include h

theorem SameToTheHost.readEngine_eq (hv : s.regs.engineValid = true ∨ s.regs.modeValid = true) :
    u.regs.readEngine = s.regs.readEngine := by
  obtain ⟨hrounds, hsubkey⟩ := h.engine hv
  exact readEngine_congr hrounds.symm hsubkey.symm

theorem SameToTheHost.modeStrict_eq (hv : s.regs.modeValid = true) : u.regs.modeStrict = s.regs.modeStrict := by
  obtain ⟨-, hstrict, -⟩ := h.mode hv
  exact hstrict.symm

/-- Under ECB nothing reads IV, and under another kind both hold the same IV (R40). -/
theorem SameToTheHost.readBinding_eq (hv : s.regs.modeValid = true) : u.regs.readBinding = s.regs.readBinding := by
  obtain ⟨hkind, -, hiv⟩ := h.mode hv
  by_cases hecb : s.regs.modeKind = .holds .ecb
  · rw [readBinding_ecb hecb, readBinding_ecb (hkind ▸ hecb)]
  · exact readBinding_congr hkind.symm (hiv hecb).symm

end SameToTheHost

/-! ### One effect for all states that agree -/

/-- A command has one effect on all the states that agree with `s` wherever a valid bit guards a register, and in the
operands that the command reads. -/
def HasEffect (command : State → Result) (sameOperands : State → Prop) (s : State) : Prop :=
  ∃ e : Effect, e.Allowed s ∧ ∀ u, SameToTheHost s u → sameOperands u → command u = e.on u

theorem execEngineInit_hasEffect (n : Nat) (s : State) :
    HasEffect (execEngineInit n) (fun u => u.keyIn = s.keyIn) s := by
  by_cases hn : 8 ≤ n ∧ n ≤ 32
  · obtain ⟨h8, h32⟩ := hn
    refine ⟨.build (normKey s.keyIn) n, trivial, fun u _ hkey => ?_⟩
    rw [execEngineInit_ok u h8 h32, hkey]
    rfl
  · exact ⟨.fail .invalidRounds, trivial, fun u _ _ => if_neg hn⟩

theorem blockCommand_hasEffect (dir : Dir) (s : State) :
    HasEffect (blockCommand dir) (fun u => u.dataIn = s.dataIn) s := by
  cases hv : s.regs.engineValid with
  | false => exact ⟨.fail .noEngine, trivial, fun u h _ => blockCommand_noEngine dir (h.engineValid ▸ hv)⟩
  | true =>
    by_cases hlen : s.dataIn.length = 8
    · cases hk : s.regs.readEngine with
      | error why =>
        exact ⟨.stop why, .inl ⟨.inl hv, hk⟩, fun u h hdata =>
          blockCommand_fault dir (h.engineValid ▸ hv) (hdata ▸ hlen) ((h.readEngine_eq (.inl hv)).trans hk)⟩
      | ok keys =>
        refine ⟨.answer (bytes8 (cipher s.cfg dir keys (be64 s.dataIn))), trivial, fun u h hdata => ?_⟩
        rw [blockCommand_ok dir (h.engineValid ▸ hv) (hdata ▸ hlen) ((h.readEngine_eq (.inl hv)).trans hk), ← h.cfg, hdata]
        rfl
    · exact ⟨.fail .invalidBlockLength, trivial, fun u h hdata =>
        blockCommand_invalidBlockLength dir (h.engineValid ▸ hv) (hdata ▸ hlen)⟩

theorem modeInit_hasEffect (kind : Kind) (ivp strict : Bool) (s : State) :
    HasEffect (modeInit kind ivp strict) (fun u => kind ≠ .ecb → ivp = true → u.ivIn = s.ivIn) s := by
  cases hv : s.regs.engineValid with
  | false => exact ⟨.fail .noEngine, trivial, fun u h _ => modeInit_noEngine ivp strict kind (h.engineValid ▸ hv)⟩
  | true =>
    by_cases hkind : kind = .ecb
    · subst hkind
      exact ⟨.bindEcb strict, hv, fun u h _ => modeInit_ecb ivp strict (h.engineValid ▸ hv)⟩
    · cases ivp with
      | false => exact ⟨.fail .missingIV, trivial, fun u h _ => modeInit_missingIV strict (h.engineValid ▸ hv) hkind⟩
      | true =>
        by_cases hlen : s.ivIn.length = 8
        · refine ⟨.bindChained kind (be64 s.ivIn) strict, hv, fun u h hiv => ?_⟩
          have hiv := hiv hkind rfl
          rw [modeInit_chained strict (h.engineValid ▸ hv) hkind (hiv ▸ hlen), hiv]
          rfl
        · exact ⟨.fail .invalidIVLength, trivial, fun u h hiv =>
            modeInit_invalidIVLength strict (h.engineValid ▸ hv) hkind (hiv hkind rfl ▸ hlen)⟩

theorem execModeEnc_hasEffect (s : State) : HasEffect execModeEnc (fun u => u.dataIn = s.dataIn) s := by
  cases hv : s.regs.modeValid with
  | false => exact ⟨.fail .noMode, trivial, fun u h _ => execModeEnc_noMode (h.modeValid ▸ hv)⟩
  | true =>
    by_cases hlen : s.dataIn.length ≤ s.cfg.maxDataLen
    · cases hb : s.regs.readBinding with
      | error why =>
        exact ⟨.stop why, .inr ⟨hv, .inl hb⟩, fun u h hdata => execModeEnc_binding_fault (h.modeValid ▸ hv)
          (h.cfg ▸ hdata ▸ hlen) ((h.readBinding_eq hv).trans hb)⟩
      | ok b =>
        cases hc : counterOverflows s.cfg.ctrOverflow (s.dataIn.length / 8 + 1) b with
        | true =>
          exact ⟨.fail .counterOverflow, trivial, fun u h hdata => execModeEnc_counterOverflow (h.modeValid ▸ hv)
            (h.cfg ▸ hdata ▸ hlen) ((h.readBinding_eq hv).trans hb) (h.cfg ▸ hdata ▸ hc)⟩
        | false =>
          cases hk : s.regs.readEngine with
          | error why =>
            exact ⟨.stop why, .inl ⟨.inr hv, hk⟩, fun u h hdata => execModeEnc_engine_fault (h.modeValid ▸ hv)
              (h.cfg ▸ hdata ▸ hlen) ((h.readBinding_eq hv).trans hb) (h.cfg ▸ hdata ▸ hc)
              ((h.readEngine_eq (.inr hv)).trans hk)⟩
          | ok keys =>
            refine ⟨.answer (unblocks (encBlocks (cipher s.cfg .enc keys) b (blocks (pad s.dataIn)))), trivial,
              fun u h hdata => ?_⟩
            rw [execModeEnc_ok (h.modeValid ▸ hv) (h.cfg ▸ hdata ▸ hlen) ((h.readBinding_eq hv).trans hb)
              ((h.readEngine_eq (.inr hv)).trans hk) (h.cfg ▸ hdata ▸ hc), ← h.cfg, hdata]
            rfl
    · exact ⟨.fail .dataTooLong, trivial, fun u h hdata => execModeEnc_dataTooLong (h.modeValid ▸ hv)
        (h.cfg ▸ hdata ▸ Nat.not_le.mp hlen)⟩

/-- MODE_DEC past its checks: what is left to read are the engine and MODE_STRICT. -/
theorem execModeDec_hasEffect_of_binding {s : State} {b : Binding} (hv : s.regs.modeValid = true)
    (hlen : s.dataIn.length ≤ s.cfg.maxDataLen) (h8 : s.dataIn.length % 8 = 0) (hb : s.regs.readBinding = .ok b)
    (hc : counterOverflows s.cfg.ctrOverflow (s.dataIn.length / 8) b = false) :
    HasEffect execModeDec (fun u => u.dataIn = s.dataIn) s := by
  cases hk : s.regs.readEngine with
  | error why =>
    exact ⟨.stop why, .inl ⟨.inr hv, hk⟩, fun u h hdata => execModeDec_engine_fault (h.modeValid ▸ hv)
      (h.cfg ▸ hdata ▸ hlen) (hdata ▸ h8) ((h.readBinding_eq hv).trans hb) (h.cfg ▸ hdata ▸ hc)
      ((h.readEngine_eq (.inr hv)).trans hk)⟩
  | ok keys =>
    cases hs : s.regs.modeStrict with
    | unwritten =>
      have hread : s.regs.modeStrict.read .modeStrict = .error (.readUnwritten .modeStrict) := by rw [hs, read_unwritten]
      exact ⟨.stop (.readUnwritten .modeStrict), .inr ⟨hv, .inr hread⟩, fun u h hdata =>
        execModeDec_strict_fault (h.modeValid ▸ hv) (h.cfg ▸ hdata ▸ hlen) (hdata ▸ h8) ((h.readBinding_eq hv).trans hb)
          (h.cfg ▸ hdata ▸ hc) ((h.readEngine_eq (.inr hv)).trans hk) ((h.modeStrict_eq hv).trans hs)⟩
    | holds strict =>
      have hok := fun (u : State) (h : SameToTheHost s u) (hdata : u.dataIn = s.dataIn) =>
        execModeDec_ok (s := u) (h.modeValid ▸ hv) (h.cfg ▸ hdata ▸ hlen) (hdata ▸ h8) ((h.readBinding_eq hv).trans hb)
          ((h.readEngine_eq (.inr hv)).trans hk) ((h.modeStrict_eq hv).trans hs) (h.cfg ▸ hdata ▸ hc)
      cases hout : unpad strict
          (unblocks (decBlocks (cipher s.cfg .enc keys) (cipher s.cfg .dec keys) b (blocks s.dataIn))) with
      | none => exact ⟨.fail .invalidPadding, trivial, fun u h hdata => (hok u h hdata).2 (by rw [← h.cfg, hdata, hout])⟩
      | some out => exact ⟨.answer out, trivial, fun u h hdata => (hok u h hdata).1 out (by rw [← h.cfg, hdata, hout])⟩

theorem execModeDec_hasEffect (s : State) : HasEffect execModeDec (fun u => u.dataIn = s.dataIn) s := by
  cases hv : s.regs.modeValid with
  | false => exact ⟨.fail .noMode, trivial, fun u h _ => execModeDec_noMode (h.modeValid ▸ hv)⟩
  | true =>
    by_cases hlen : s.dataIn.length ≤ s.cfg.maxDataLen
    · by_cases h8 : s.dataIn.length % 8 = 0
      · cases hb : s.regs.readBinding with
        | error why =>
          exact ⟨.stop why, .inr ⟨hv, .inl hb⟩, fun u h hdata => execModeDec_binding_fault (h.modeValid ▸ hv)
            (h.cfg ▸ hdata ▸ hlen) (hdata ▸ h8) ((h.readBinding_eq hv).trans hb)⟩
        | ok b =>
          cases hc : counterOverflows s.cfg.ctrOverflow (s.dataIn.length / 8) b with
          | true =>
            exact ⟨.fail .counterOverflow, trivial, fun u h hdata => execModeDec_counterOverflow (h.modeValid ▸ hv)
              (h.cfg ▸ hdata ▸ hlen) (hdata ▸ h8) ((h.readBinding_eq hv).trans hb) (h.cfg ▸ hdata ▸ hc)⟩
          | false => exact execModeDec_hasEffect_of_binding hv hlen h8 hb hc
      · exact ⟨.fail .invalidBlockLength, trivial, fun u h hdata => execModeDec_invalidBlockLength (h.modeValid ▸ hv)
          (h.cfg ▸ hdata ▸ hlen) (hdata ▸ h8)⟩
    · exact ⟨.fail .dataTooLong, trivial, fun u h hdata => execModeDec_dataTooLong (h.modeValid ▸ hv)
        (h.cfg ▸ hdata ▸ Nat.not_le.mp hlen)⟩

theorem exec_hasEffect (i : Instr) (s : State) : HasEffect (exec i) (SameOperands i s) s := by
  cases i with
  | engineInit n => exact execEngineInit_hasEffect n s
  | blockEnc => exact blockCommand_hasEffect .enc s
  | blockDec => exact blockCommand_hasEffect .dec s
  | modeInitEcb ivp strict =>
    obtain ⟨e, he, h⟩ := modeInit_hasEffect .ecb ivp strict s
    exact ⟨e, he, fun u hu _ => h u hu fun hkind => absurd rfl hkind⟩
  | modeInitCbc ivp strict =>
    obtain ⟨e, he, h⟩ := modeInit_hasEffect .cbc ivp strict s
    exact ⟨e, he, fun u hu hiv => h u hu fun _ => hiv⟩
  | modeInitCfb ivp strict =>
    obtain ⟨e, he, h⟩ := modeInit_hasEffect .cfb ivp strict s
    exact ⟨e, he, fun u hu hiv => h u hu fun _ => hiv⟩
  | modeInitOfb ivp strict =>
    obtain ⟨e, he, h⟩ := modeInit_hasEffect .ofb ivp strict s
    exact ⟨e, he, fun u hu hiv => h u hu fun _ => hiv⟩
  | modeInitCtr ivp strict =>
    obtain ⟨e, he, h⟩ := modeInit_hasEffect .ctr ivp strict s
    exact ⟨e, he, fun u hu hiv => h u hu fun _ => hiv⟩
  | modeEnc => exact execModeEnc_hasEffect s
  | modeDec => exact execModeDec_hasEffect s

/-- States with the same bytes in all three buffers agree in those that a command reads. -/
theorem sameOperands_of_buffers {s u : State} (i : Instr) (hkey : u.keyIn = s.keyIn) (hiv : u.ivIn = s.ivIn)
    (hdata : u.dataIn = s.dataIn) : SameOperands i s u := by
  cases i <;> simp [SameOperands, hkey, hiv, hdata]

theorem sameOperands_refl (i : Instr) (s : State) : SameOperands i s s := sameOperands_of_buffers i rfl rfl rfl

/-- The effect of a command on the state it runs in. -/
theorem exec_eq_effect (i : Instr) (s : State) : ∃ e : Effect, e.Allowed s ∧ exec i s = e.on s := by
  obtain ⟨e, he, h⟩ := exec_hasEffect i s
  exact ⟨e, he, h s (sameToTheHost_refl s) (sameOperands_refl i s)⟩

end Sys2Proof.Machine

/-! PROOFS. The step, and what every command leaves alone: each statement about all commands is a statement about the six
effects, or about the cases of one command. -/

namespace Sys2Proof.Machine

/-! ### What an effect writes -/

/-- Every effect that answers writes registers and the response, and nothing else. -/
theorem Effect.on_frame {e : Effect} {s t : State} (h : e.on s = .next t) :
    ∃ regs rsp, t = { s with regs := regs, response := some rsp } := by
  cases e with
  | stop why => cases h
  | fail error | answer out | build kb n | bindEcb strict | bindChained kind iv strict =>
    cases h
    exact ⟨_, _, rfl⟩

/-- The frame of every command. -/
theorem exec_frame {i : Instr} {s t : State} (h : exec i s = .next t) :
    ∃ regs rsp, t = { s with regs := regs, response := some rsp } := by
  obtain ⟨e, -, he⟩ := exec_eq_effect i s
  exact Effect.on_frame (he ▸ h)

/-- An effect depends on the configuration and the registers alone. -/
theorem Effect.on_congr {e : Effect} {s t u : State} (h : e.on s = .next t) (hcfg : u.cfg = s.cfg)
    (hregs : u.regs = s.regs) : e.on u = .next { u with regs := t.regs, response := t.response } := by
  cases e with
  | stop why => cases h
  | fail error | answer out | build kb n | bindEcb strict | bindChained kind iv strict =>
    cases h
    simp [Effect.on, raise, returnOk, State.respond, State.withRegs, hcfg, hregs]

/-- A command does to a state with the same registers and the operands it reads what it does to `s`. -/
theorem exec_congr {i : Instr} {s t u : State} (h : exec i s = .next t) (hcfg : u.cfg = s.cfg)
    (hregs : u.regs = s.regs) (hop : SameOperands i s u) :
    exec i u = .next { u with regs := t.regs, response := t.response } := by
  obtain ⟨e, -, he⟩ := exec_hasEffect i s
  rw [he s (sameToTheHost_refl s) (sameOperands_refl i s)] at h
  rw [he u (sameToTheHost_of_regs hcfg.symm hregs.symm) hop]
  exact Effect.on_congr h hcfg hregs

theorem exec_ne_refused (i : Instr) (s : State) (why : Refusal) : exec i s ≠ .refused why := by
  obtain ⟨e, -, he⟩ := exec_eq_effect i s
  rw [he]
  cases e <;> exact nofun

/-! ### No command faults under the invariants -/

/-- R33 and R37: where a valid bit lets a command read a register, the invariants say that it holds a value. -/
theorem not_readFails_of_inv {s : State} (h : Inv s) (why : Fault) : ¬ReadFails s why := by
  obtain ⟨hmode, hengine, hbound⟩ := id h
  rintro (⟨hv, hfails⟩ | ⟨hv, hfails | hfails⟩)
  · obtain ⟨keys, hk⟩ := readEngine_exists h (hv.elim id hmode)
    rw [hk] at hfails
    cases hfails
  · obtain ⟨b, hb⟩ := readBinding_bound (hbound hv)
    rw [hb] at hfails
    cases hfails
  · obtain ⟨_, strict, -, hs, -⟩ := hbound hv
    rw [hs] at hfails
    cases hfails

theorem exec_ne_fault_of_inv {s : State} (h : Inv s) (i : Instr) (why : Fault) : exec i s ≠ .fault why := by
  obtain ⟨e, hallowed, he⟩ := exec_eq_effect i s
  rw [he]
  cases e with
  | stop why' => exact absurd hallowed (not_readFails_of_inv h why')
  | fail error | answer out | build kb n | bindEcb strict | bindChained kind iv strict => exact nofun

/-- Under the invariants every command answers (R46, R100). -/
theorem exec_answers_of_inv {s : State} (h : Inv s) (i : Instr) :
    ∃ regs rsp, exec i s = .next { s with regs := regs, response := some rsp } := by
  cases hexec : exec i s with
  | next t =>
    obtain ⟨regs, rsp, rfl⟩ := exec_frame hexec
    exact ⟨regs, rsp, rfl⟩
  | fault why => exact absurd hexec (exec_ne_fault_of_inv h i why)
  | refused why => exact absurd hexec (exec_ne_refused i s why)

/-! ### The step -/

/-- Settles O6. -/
theorem stepRunsTheDecodedInstruction : Obligations.StepRunsTheDecodedInstruction := by
  constructor
  · intro s r rest i hs hp hi
    rw [step_request hs hp, runWord, hi]
    rfl
  · intro s w i hs hi
    rw [step_request (s := s.withFetchWord 32 w) hs rfl, runWord, tableWord, hi]
    rfl

/-- Settles O7. -/
theorem idleCoreHoldsItsState : Obligations.IdleCoreHoldsItsState := by
  intro s hs hp
  have hstep : step s = .next s.idle := by rw [step_wellShaped hs, runEvent, hp]
  exact ⟨s.idle, hstep, idle_regs s, idle_cfg s, hp, idle_response s⟩

theorem reset_subkey (i : Fin 32) : Regs.reset.subkey[i] = .unwritten := Vector.getElem_replicate i.isLt

/-- Settles O8. -/
theorem resetEventClearsTheCore : Obligations.ResetEventClearsTheCore := fun s _ rest hs hp he =>
  ⟨s.takeReset rest, step_reset hs he hp, rfl, rfl, rfl, rfl, reset_subkey, rfl, rfl, rfl, rfl, rfl, rfl⟩

/-- Settles O9. The reset state is the one a reset leaves with nothing pending. -/
theorem resetStateHoldsResetValues : Obligations.ResetStateHoldsResetValues := fun c =>
  ⟨rfl, rfl, rfl, rfl, reset_subkey, rfl, rfl, rfl, rfl, rfl, inv_takeReset (State.resetWith c) []⟩

/-- A request is answered, by its command or by the refusal of its word. -/
theorem step_request_answers {s : State} {r : Request} {rest : List Event} (h : Inv s)
    (hs : shapeOk s.cfg.tables = true) (hp : s.pending = .request r :: rest) :
    ∃ t rsp, step s = .next t ∧ t.response = some rsp ∧ t.pending = rest := by
  cases hi : decode r.cmd with
  | ok i =>
    obtain ⟨regs, rsp, hexec⟩ := exec_answers_of_inv (inv_accept h r rest) i
    refine ⟨{ s.accept r rest with regs := regs, response := some rsp }, rsp, ?_, rfl, rfl⟩
    rw [step_request hs hp, runWord, hi]
    exact hexec
  | error e => exact ⟨_, _, step_of_decode_eq_error hs hp hi, respond_response _ _ _, accept_pending r rest s⟩

/-- Settles O11, by the event that is next. -/
theorem everyRequestIsAnsweredOnce : Obligations.EveryRequestIsAnsweredOnce := by
  intro s h hs
  refine ⟨?_, fun r rest hp => step_request_answers h hs hp⟩
  cases hp : s.pending with
  | nil => exact ⟨s.idle, by rw [step_wellShaped hs, runEvent, hp]⟩
  | cons ev rest =>
    cases ev with
    | request r =>
      obtain ⟨t, _, hstep, -⟩ := step_request_answers h hs hp
      exact ⟨t, hstep⟩
    | reset | resetDuring r => exact ⟨_, step_reset hs rfl hp⟩

/-! ### The shape check -/

theorem selectionOk_iff {len width : Nat} {table : List Nat} :
    selectionOk len width table = true ↔ table.length = len ∧ ∀ n ∈ table, 1 ≤ n ∧ n ≤ width := by
  simp [selectionOk]

theorem sboxOk_iff {box : List (List Nat)} :
    sboxOk box = true ↔ box.length = 4 ∧ ∀ row ∈ box, row.length = 16 ∧ ∀ n ∈ row, n < 16 := by
  simp [sboxOk]

/-- As many entries as positions, each of them a position, and every position among them: that is a permutation. -/
theorem perm_range'_iff {m : Nat} {p : List Nat} :
    p.Perm (List.range' 1 m) ↔ (p.length = m ∧ ∀ n ∈ p, 1 ≤ n ∧ n ≤ m) ∧ ∀ n < m, n + 1 ∈ p := by
  constructor
  · intro h
    have hmem : ∀ n, n ∈ p ↔ 1 ≤ n ∧ n ≤ m := fun n => by rw [h.mem_iff, List.mem_range'_1]; omega
    refine ⟨⟨by rw [h.length_eq, List.length_range'], fun n hn => (hmem n).mp hn⟩, fun n hn => (hmem _).mpr ?_⟩
    omega
  · rintro ⟨⟨hlen, -⟩, hall⟩
    have hsubset : List.range' 1 m ⊆ p := fun n hn => by
      obtain ⟨h1, hm⟩ := List.mem_range'_1.mp hn
      have hprev := hall (n - 1) (by omega)
      rwa [Nat.sub_add_cancel h1] at hprev
    have hsubperm := List.subperm_of_subset (List.nodup_range' (step := 1)) hsubset
    exact (hsubperm.perm_of_length_le (by rw [hlen, List.length_range'])).symm

theorem shapeOk_iff (t : Tables) : shapeOk t = true ↔
    (t.e.length = 48 ∧ ∀ n ∈ t.e, 1 ≤ n ∧ n ≤ 32) ∧
    t.p.Perm (List.range' 1 32) ∧
    (t.sboxes.length = 8 ∧ ∀ box ∈ t.sboxes, box.length = 4 ∧ ∀ row ∈ box, row.length = 16 ∧ ∀ n ∈ row, n < 16) ∧
    (t.pc1.length = 56 ∧ ∀ n ∈ t.pc1, 1 ≤ n ∧ n ≤ 64) ∧
    (t.pc2.length = 48 ∧ ∀ n ∈ t.pc2, 1 ≤ n ∧ n ≤ 56) := by
  simp only [shapeOk, Bool.and_eq_true, selectionOk_iff, perm_range'_iff, beq_iff_eq, List.all_eq_true, sboxOk_iff,
    List.mem_range, List.contains_iff_mem, and_assoc]

/-- A well-shaped machine is never refused: waiting, a reset and a refused word answer, and no command is left out. -/
theorem step_ne_refused {s : State} (hs : shapeOk s.cfg.tables = true) (why : Refusal) : step s ≠ .refused why := by
  rw [step_wellShaped hs, runEvent]
  split
  · exact nofun
  · exact nofun
  · exact nofun
  · unfold runWord
    split
    · exact exec_ne_refused _ _ why
    · exact nofun

/-- Settles O12. -/
theorem malformedTablesAreRefused : Obligations.MalformedTablesAreRefused := by
  refine ⟨shapeOk_iff, fun s => ⟨fun h => ?_, step_malformed⟩, fun s why hs => step_ne_refused hs why⟩
  by_contra hs
  exact step_ne_refused (Bool.eq_true_of_not_eq_false hs) _ h

/-- Settles O13. -/
theorem configurationNeverChanges : Obligations.ConfigurationNeverChanges := by
  intro s t h
  obtain ⟨-, ⟨-, rfl⟩ | ⟨_, rest, -, -, rfl⟩ | ⟨q, rest, -, ⟨_, -, hexec⟩ | ⟨_, -, rfl⟩⟩⟩ := step_cases h
  · exact idle_cfg s
  · exact takeReset_cfg rest s
  · obtain ⟨regs, rsp, rfl⟩ := exec_frame hexec
    exact accept_cfg q rest s
  · exact accept_cfg q rest s

end Sys2Proof.Machine

/-! PROOFS. What each command answers and writes: the completing forms of ENGINE_INIT and MODE_INIT, the errors in their
order, the statuses, the frames, and the registers, operands and events that no command looks at. -/

namespace Sys2Proof.Machine

/-! ### Completions and errors -/

/-- Settles O14. The file is `subkeyFile` of the schedule. -/
theorem engineInitBuildsTheEngine : Obligations.EngineInitBuildsTheEngine := by
  intro s r h8 h32
  refine ⟨subkeyFile (ks s.cfg.tables (normKey s.keyIn) r), execEngineInit_ok s h8 h32, fun i hi => ?_, fun i hi => ?_⟩
  · exact subkeyFile_holds _ i (by rwa [ks_length])
  · exact subkeyFile_unwritten _ i (by rwa [ks_length])

/-- Settles O24. -/
theorem blockCommandErrors : Obligations.BlockCommandErrors := by
  rintro s i (rfl | rfl)
  · exact ⟨blockCommand_noEngine .enc, blockCommand_invalidBlockLength .enc⟩
  · exact ⟨blockCommand_noEngine .dec, blockCommand_invalidBlockLength .dec⟩

/-- Settles O27. -/
theorem modeInitEcbBinds : Obligations.ModeInitEcbBinds := fun _ ivp strict hv => modeInit_ecb ivp strict hv

/-- Settles O28. The four chained commands are `modeInit` of their kinds. -/
theorem modeInitChainedBinds : Obligations.ModeInitChainedBinds := by
  rintro s strict i kind (⟨rfl, rfl⟩ | ⟨rfl, rfl⟩ | ⟨rfl, rfl⟩ | ⟨rfl, rfl⟩) hv hlen <;>
    exact modeInit_chained strict hv (by decide) hlen

/-- The errors of MODE_INIT of a chained kind, in R313's order. -/
theorem modeInit_errors {kind : Kind} (hkind : kind ≠ .ecb) (s : State) (ivp strict : Bool) :
    (s.regs.engineValid = false → modeInit kind ivp strict s = s.answering 0x06 []) ∧
    (s.regs.engineValid = true → ivp = false → modeInit kind ivp strict s = s.answering 0x03 []) ∧
    (s.regs.engineValid = true → ivp = true → s.ivIn.length ≠ 8 → modeInit kind ivp strict s = s.answering 0x08 []) := by
  refine ⟨modeInit_noEngine ivp strict kind, ?_, ?_⟩
  · rintro hv rfl
    exact modeInit_missingIV strict hv hkind
  · rintro hv rfl hlen
    exact modeInit_invalidIVLength strict hv hkind hlen

/-- Settles O29. -/
theorem modeInitErrors : Obligations.ModeInitErrors := by
  refine ⟨fun s ivp strict => modeInit_noEngine ivp strict .ecb, ?_⟩
  rintro s ivp strict i (rfl | rfl | rfl | rfl) <;> exact modeInit_errors (by decide) s ivp strict

/-! ### Errors and statuses -/

/-- Settles O48. Of the effects only `fail` answers another status than OK, and it writes nothing but the response. -/
theorem errorsChangeNothing : Obligations.ErrorsChangeNothing := by
  intro i s t status out h hresponse hstatus
  obtain ⟨e, -, he⟩ := exec_eq_effect i s
  rw [he] at h
  cases e with
  | stop why => cases h
  | fail error =>
    cases h
    obtain ⟨rfl, rfl⟩ := Response.mk.inj (Option.some.inj hresponse)
    exact ⟨rfl, rfl⟩
  | answer out | build kb n | bindEcb strict | bindChained kind iv strict =>
    cases h
    obtain ⟨hok, -⟩ := Response.mk.inj (Option.some.inj hresponse)
    exact absurd hok.symm hstatus

/-- The status of a delivered response. -/
theorem status_of_respond {s : State} {st : Status} {out : Bytes} {rsp : Response}
    (h : (s.respond st out).response = some rsp) : rsp.status = st.code := by
  cases h
  rfl

theorem blockCommand_status {dir : Dir} {s t : State} {rsp : Response} (hrsp : t.response = some rsp)
    (h : blockCommand dir s = .next t) : rsp.status ∈ [0x00, 0x01, 0x06] := by
  rcases blockCommand_cases h with ⟨-, rfl⟩ | ⟨-, -, rfl⟩ | ⟨-, -, _, -, rfl⟩ <;>
    simp [status_of_respond hrsp, Status.code]

theorem modeInit_ecb_status {ivp strict : Bool} {s t : State} {rsp : Response} (hrsp : t.response = some rsp)
    (h : modeInit .ecb ivp strict s = .next t) : rsp.status ∈ [0x00, 0x06] := by
  rcases modeInit_cases h with ⟨-, rfl⟩ | ⟨-, -, rfl⟩ | ⟨-, hkind, -⟩ | ⟨-, hkind, -⟩ | ⟨-, hkind, -⟩
  · simp [status_of_respond hrsp, Status.code]
  · simp [status_of_respond hrsp, Status.code]
  all_goals exact absurd rfl hkind

theorem modeInit_status {kind : Kind} {ivp strict : Bool} {s t : State} {rsp : Response} (hrsp : t.response = some rsp)
    (h : modeInit kind ivp strict s = .next t) : rsp.status ∈ [0x00, 0x03, 0x06, 0x08] := by
  rcases modeInit_cases h with ⟨-, rfl⟩ | ⟨-, -, rfl⟩ | ⟨-, -, -, rfl⟩ | ⟨-, -, -, -, rfl⟩ | ⟨-, -, -, -, rfl⟩ <;>
    simp [status_of_respond hrsp, Status.code]

theorem execEngineInit_status {n : Nat} {s t : State} {rsp : Response} (hrsp : t.response = some rsp)
    (h : execEngineInit n s = .next t) : rsp.status ∈ [0x00, 0x02] := by
  rcases execEngineInit_cases h with ⟨-, -, rfl⟩ | ⟨-, rfl⟩ <;> simp [status_of_respond hrsp, Status.code]

theorem execModeEnc_status {s t : State} {rsp : Response} (hrsp : t.response = some rsp)
    (h : execModeEnc s = .next t) : rsp.status ∈ [0x00, 0x07, 0x09, 0x0A] := by
  rcases execModeEnc_cases h with ⟨-, rfl⟩ | ⟨-, -, rfl⟩ | ⟨-, -, _, -, ⟨-, rfl⟩ | ⟨-, _, -, rfl⟩⟩ <;>
    simp [status_of_respond hrsp, Status.code]

theorem execModeDec_status {s t : State} {rsp : Response} (hrsp : t.response = some rsp)
    (h : execModeDec s = .next t) : rsp.status ∈ [0x00, 0x01, 0x04, 0x07, 0x09, 0x0A] := by
  rcases execModeDec_cases h with ⟨-, rfl⟩ | ⟨-, -, rfl⟩ | ⟨-, -, -, rfl⟩ |
      ⟨-, -, -, _, -, ⟨-, rfl⟩ | ⟨-, _, _, -, -, ⟨_, -, rfl⟩ | ⟨-, rfl⟩⟩⟩ <;>
    simp [status_of_respond hrsp, Status.code]

theorem status_code_le (st : Status) : st.code.toNat ≤ 0x0A := by cases st <;> decide

/-- An effect answers one of the statuses of R301. -/
theorem Effect.on_status_le {e : Effect} {s t : State} {rsp : Response} (h : e.on s = .next t)
    (hrsp : t.response = some rsp) : rsp.status.toNat ≤ 0x0A := by
  cases e with
  | stop why => cases h
  | fail error | answer out | build kb n | bindEcb strict | bindChained kind iv strict =>
    cases h
    rw [status_of_respond hrsp]
    exact status_code_le _

theorem step_status_le {s t : State} {rsp : Response} (h : step s = .next t) (hrsp : t.response = some rsp) :
    rsp.status.toNat ≤ 0x0A := by
  obtain ⟨-, ⟨-, rfl⟩ | ⟨_, rest, -, -, rfl⟩ | ⟨q, rest, -, ⟨i, -, hexec⟩ | ⟨_, -, rfl⟩⟩⟩ := step_cases h
  · cases hrsp
  · cases hrsp
  · obtain ⟨e, -, he⟩ := exec_eq_effect i (s.accept q rest)
    exact Effect.on_status_le (he ▸ hexec) hrsp
  · rw [status_of_respond hrsp]
    exact status_code_le _

/-- Settles O49. -/
theorem eachCommandEndsInItsStatuses : Obligations.EachCommandEndsInItsStatuses :=
  ⟨fun _ _ _ hrsp => ⟨fun _ => execEngineInit_status hrsp, blockCommand_status hrsp, blockCommand_status hrsp,
    fun _ _ => modeInit_ecb_status hrsp, fun _ _ => modeInit_status hrsp, fun _ _ => modeInit_status hrsp,
    fun _ _ => modeInit_status hrsp, fun _ _ => modeInit_status hrsp, execModeEnc_status hrsp,
    execModeDec_status hrsp⟩,
  fun _ _ _ => step_status_le⟩

/-! ### Frames -/

/-- The commands that `exec_cases` says write a register are initialising ones. -/
theorem dataCommand_respond {i : Instr} {s t : State} (hi : i = .blockEnc ∨ i = .blockDec ∨ i = .modeEnc ∨ i = .modeDec)
    (h : exec i s = .next t) : ∃ st out, t = s.respond st out := by
  rcases exec_cases h with hrespond | ⟨n, rfl, -⟩ | ⟨ivp, strict, kind, _, -, rfl, -⟩
  · exact hrespond
  · simp at hi
  · cases kind <;> simp [modeInitInstr] at hi

/-- Settles O50. -/
theorem dataCommandsWriteNoRegister : Obligations.DataCommandsWriteNoRegister := by
  intro i s t hi h
  obtain ⟨st, out, rfl⟩ := dataCommand_respond hi h
  rfl

theorem modeInit_frame {kind : Kind} {ivp strict : Bool} {s t : State} (h : modeInit kind ivp strict s = .next t) :
    t.regs.engineValid = s.regs.engineValid ∧ t.regs.key = s.regs.key ∧ t.regs.rounds = s.regs.rounds ∧
    t.regs.subkey = s.regs.subkey ∧ (kind = .ecb → t.regs.iv = s.regs.iv) ∧
    t = { s with regs := t.regs, response := t.response } := by
  rcases modeInit_cases h with ⟨-, rfl⟩ | ⟨-, -, rfl⟩ | ⟨-, -, -, rfl⟩ | ⟨-, -, -, -, rfl⟩ | ⟨-, hkind, -, -, rfl⟩
  case inr.inr.inr.inr => exact ⟨rfl, rfl, rfl, rfl, fun hecb => absurd hecb hkind, rfl⟩
  all_goals exact ⟨rfl, rfl, rfl, rfl, fun _ => rfl, rfl⟩

/-- Settles O51. -/
theorem initCommandsFrame : Obligations.InitCommandsFrame := by
  constructor
  · intro r s t h
    rcases execEngineInit_cases h with ⟨-, -, rfl⟩ | ⟨-, rfl⟩ <;> exact ⟨rfl, rfl, rfl, rfl⟩
  · rintro v p i s t (rfl | rfl | rfl | rfl | rfl) h
    all_goals
      obtain ⟨hvalid, hkey, hrounds, hsubkey, hiv, hframe⟩ := modeInit_frame h
      refine ⟨hvalid, hkey, hrounds, hsubkey, ?_, hframe⟩
    · exact fun _ => hiv rfl
    all_goals exact nofun

/-- What O52 says of a command: without a successful ENGINE_INIT the engine stands and MODE_VALID is not cleared. -/
theorem exec_keeps_engine {i : Instr} {s t : State} (h : exec i s = .next t)
    (hi : ∀ n, i = .engineInit n → ¬(8 ≤ n ∧ n ≤ 32)) :
    t.regs.subkey = s.regs.subkey ∧ t.regs.key = s.regs.key ∧ t.regs.rounds = s.regs.rounds ∧
    t.regs.engineValid = s.regs.engineValid ∧ (s.regs.modeValid = true → t.regs.modeValid = true) := by
  rcases exec_cases h with ⟨st, out, rfl⟩ | ⟨n, rfl, h8, h32, -⟩ | ⟨_, _, kind, r, -, -, ⟨-, rfl⟩ | ⟨-, -, -, rfl⟩, rfl⟩
  · exact ⟨rfl, rfl, rfl, rfl, id⟩
  · exact absurd ⟨h8, h32⟩ (hi n rfl)
  · exact ⟨rfl, rfl, rfl, rfl, fun _ => rfl⟩
  · exact ⟨rfl, rfl, rfl, rfl, fun _ => rfl⟩

theorem exec_keeps_engineValid {i : Instr} {s t : State} (h : exec i s = .next t) (hv : s.regs.engineValid = true) :
    t.regs.engineValid = true := by
  rcases exec_cases h with ⟨st, out, rfl⟩ | ⟨n, -, -, -, rfl⟩ | ⟨_, _, kind, r, -, -, ⟨-, rfl⟩ | ⟨-, -, -, rfl⟩, rfl⟩
  · exact hv
  · rfl
  · exact hv
  · exact hv

/-- Settles O52. -/
theorem onlyEngineInitOrResetChangesTheEngine : Obligations.OnlyEngineInitOrResetChangesTheEngine := by
  intro s t h
  obtain ⟨-, ⟨-, rfl⟩ | ⟨ev, rest, hp, hreset, -⟩ | ⟨q, rest, hp, ⟨i, hi, hexec⟩ | ⟨_, -, rfl⟩⟩⟩ := step_cases h
  case inr.inl => exact ⟨fun _ => .inr ⟨ev, rest, hp, hreset⟩, fun _ _ => ⟨ev, rest, hp, hreset⟩⟩
  case inr.inr.inl =>
    refine ⟨fun hchanged => ?_, fun hv hcleared => ?_⟩
    · by_contra hnone
      obtain ⟨hsubkey, hkey, hrounds, hvalid, hmode⟩ := exec_keeps_engine hexec fun n hn hlegal =>
        hnone (.inl ⟨q, rest, n, hp, hn ▸ hi, hlegal⟩)
      rcases hchanged with h | h | h | h | ⟨hbound, hcleared⟩
      · exact h hsubkey
      · exact h hkey
      · exact h hrounds
      · exact h hvalid
      · rw [hmode hbound] at hcleared
        cases hcleared
    · rw [exec_keeps_engineValid hexec hv] at hcleared
      cases hcleared
  -- Waiting and refusing a word write no register.
  all_goals simp_all

end Sys2Proof.Machine

/-! PROOFS. What no command looks at: KEY, the operands that R110 leaves unread, the standing response and the pending
events. -/

namespace Sys2Proof.Machine

/-! ### KEY -/

/-- No valid bit guards KEY (R34). -/
theorem sameToTheHost_setKey (s : State) (key : Reg Block) : SameToTheHost s (s.setKey key) where
  cfg := rfl
  engineValid := rfl
  modeValid := rfl
  engine _ := ⟨rfl, rfl⟩
  mode _ := ⟨rfl, rfl, fun _ => rfl⟩

/-- An effect writes the same registers but KEY, and the same response, whatever KEY holds. -/
theorem Effect.on_setKey {e : Effect} {s t : State} (h : e.on s = .next t) (key : Reg Block) :
    ∃ t', e.on (s.setKey key) = .next t' ∧ t'.response = t.response ∧ t'.setKey .unwritten = t.setKey .unwritten := by
  cases e with
  | stop why => cases h
  | fail error | answer out | build kb n | bindEcb strict | bindChained kind iv strict =>
    cases h
    exact ⟨_, rfl, rfl, rfl⟩

/-- Settles O54. -/
theorem keyRegisterIsNeverRead : Obligations.KeyRegisterIsNeverRead := by
  intro i s t key h
  obtain ⟨e, -, he⟩ := exec_hasEffect i s
  rw [he s (sameToTheHost_refl s) (sameOperands_refl i s)] at h
  rw [he (s.setKey key) (sameToTheHost_setKey s key) (sameOperands_of_buffers i rfl rfl rfl)]
  exact Effect.on_setKey h key

/-! ### Operands, the response and the pending events -/

/-- Settles O55. Each replacement keeps the operands that the command reads. -/
theorem unreadOperandsAreIgnored : Obligations.UnreadOperandsAreIgnored := by
  intro s t key iv data
  refine ⟨fun i hi h => ?_, fun r h => ?_, fun v p i hi h => ?_, fun v p i hi h => ?_⟩ <;>
    obtain ⟨regs, rsp, rfl⟩ := exec_frame h
  · refine exec_congr (u := { s with keyIn := key, ivIn := iv }) h rfl rfl ?_
    rcases hi with rfl | rfl | rfl | rfl <;> rfl
  · exact exec_congr (u := { s with ivIn := iv, dataIn := data }) h rfl rfl rfl
  · refine exec_congr (u := { s with keyIn := key, dataIn := data }) h rfl rfl ?_
    rcases hi with rfl | rfl | rfl | rfl <;> exact fun _ => rfl
  · refine exec_congr (u := { s with keyIn := key, ivIn := iv, dataIn := data }) h rfl rfl ?_
    rcases hi with rfl | rfl | rfl | rfl | rfl
    · trivial
    all_goals exact nofun

/-- Settles O56. -/
theorem responsesAndLaterCommandsAreNotRead : Obligations.ResponsesAndLaterCommandsAreNotRead := by
  intro i s t rsp later h
  obtain ⟨regs, rsp', rfl⟩ := exec_frame h
  exact exec_congr (u := { s with response := rsp, pending := later }) h rfl rfl (sameOperands_of_buffers i rfl rfl rfl)

/-- Settles O47. The state left differs in the response only, which no command reads. -/
theorem reissuedCommandGivesTheSameResponse : Obligations.ReissuedCommandGivesTheSameResponse := by
  intro i s t hi h
  have hframe := dataCommandsWriteNoRegister i s t hi h
  have hagain := responsesAndLaterCommandsAreNotRead i s t t.response s.pending h
  rw [hframe] at hagain ⊢
  exact hagain

end Sys2Proof.Machine

/-! PROOFS. The subkeys as cumulative rotations (40_key_schedule.md R144, R146), the rounds one by one (41_round_engine.md
R189 to R191), and the block commands' answers byte by byte (R192, R193). -/

namespace Sys2Proof.Machine

/-! ### The key schedule -/

/-- `rol28_getLsbD` with the full turn, which the schedule's sums of amounts never reach. -/
theorem rol28_getLsbD_le (x : KeyHalf) {a i : Nat} (ha : a ≤ 28) (hi : i < 28) :
    (rol28 x a).getLsbD i = x.getLsbD ((i + 28 - a) % 28) := by
  rcases Nat.lt_or_eq_of_le ha with hlt | rfl
  · exact rol28_getLsbD x a hlt i hi
  · have hout : x <<< 28 = 0 := BitVec.shiftLeft_eq_zero (le_refl 28)
    rw [Nat.add_sub_cancel, Nat.mod_eq_of_lt hi, rol28, hout]
    simp

/-- Settles O18. The sum of amounts is `totalShift`, and the entry is `roundSubkey`. -/
theorem subkeyIsCumulativeRotation : Obligations.SubkeyIsCumulativeRotation :=
  ⟨fun t kb rounds _ hi => ⟨ks_length t kb rounds, ks_getElem? t kb hi⟩, fun x _ _ ha hi => rol28_getLsbD_le x ha hi⟩

/-! ### The rounds -/

/-- One more round: the old upper half moves down and the old lower half takes in F (R189). -/
theorem feistel_concat (t : Tables) (keys : List Subkey) (k : Subkey) (b : Block) :
    feistel t (keys ++ [k]) b =
      (((feistel t keys b).extractLsb' 0 32 ^^^ roundF t ((feistel t keys b).extractLsb' 32 32) k) ++
        (feistel t keys b).extractLsb' 32 32 : BitVec 64) := by
  simp only [feistel, halves_hi, halves_lo, List.foldl_append, List.foldl_cons, List.foldl_nil, round]

theorem cipher_absent {c : Config} (h : c.ipfp = .absent) (dir : Dir) (keys : List Subkey) (b : Block) :
    cipher c dir keys b = feistel c.tables (dir.order keys) b := by
  rw [cipher, h, initialPerm, finalPerm]

theorem cipher_present {c : Config} (h : c.ipfp = .present) (dir : Dir) (keys : List Subkey) (b : Block) :
    cipher c dir keys b = perm 64 fpTable (feistel c.tables (dir.order keys) (perm 64 ipTable b)) := by
  rw [cipher, h, initialPerm, finalPerm]

/-- Settles O22. -/
theorem eachRoundUpdatesTheHalves : Obligations.EachRoundUpdatesTheHalves :=
  ⟨fun t keys k b => ⟨rfl, feistel_concat t keys k b⟩,
   fun _ keys b h => ⟨cipher_absent h .enc keys b, cipher_absent h .dec keys b⟩,
   fun _ keys b h => ⟨cipher_present h .enc keys b, cipher_present h .dec keys b, fp_ip b, ip_fp b⟩⟩

/-! ### The block commands -/

/-- Byte j of block k of a message is byte 8k + j of the message, big-endian (R15, R75). -/
theorem blockAt_extractLsb' {w : Bytes} {k j : Nat} (hk : 8 * k + 8 ≤ w.length) (hj : j < 8) :
    some ((blockAt w k).extractLsb' (56 - 8 * j) 8) = w[8 * k + j]? := by
  rw [blockAt, be64_extractLsb' (memRead_length w (8 * k) 8 hk) hj, memRead, List.getElem?_take, if_pos hj,
    List.getElem?_drop]

/-- Settles O23. DEC is the primitive on the subkeys reversed, by its definition (R190). -/
theorem blockCommandsAnswerTheCipher : Obligations.BlockCommandsAnswerTheCipher := by
  refine ⟨fun s keys h hv hkeys hlen => ?_, fun b j hb hj => be64_extractLsb' hb hj,
    fun v j => ⟨bytes8_length v, bytes8_getElem? v⟩, be64_bytes8, bytes8_be64, fun w k j => blockAt_extractLsb'⟩
  have hk := readEngine_of_inv h hv hkeys
  exact ⟨blockCommand_ok .enc hv hlen hk, blockCommand_ok .dec hv hlen hk⟩

end Sys2Proof.Machine

/-! PROOFS. The mode layer of 42_modes.md: strict unpadding, what MODE_ENC and MODE_DEC answer block by block, their errors
and lengths, and the laws between them. -/

namespace Sys2Proof.Machine

/-! ### Strict unpadding -/

/-- Strict unpadding succeeds on the strings that end in n bytes of value n, and takes these off (R232). -/
theorem unpadStrict_eq_some_iff {w d : Bytes} : unpadStrict w = some d ↔
    ∃ n : Byte, w.getLast? = some n ∧ 1 ≤ n.toNat ∧ n.toNat ≤ 8 ∧ w = d ++ List.replicate n.toNat n := by
  unfold unpadStrict
  cases w.getLast? with
  | none => simp
  | some n =>
    simp only [Option.some.injEq, exists_eq_left', Option.ite_none_right_eq_some]
    constructor
    · rintro ⟨⟨h1, h8, hlen, hall⟩, rfl⟩
      have htail : w.drop (w.length - n.toNat) = List.replicate n.toNat n :=
        List.eq_replicate_iff.mpr ⟨by rw [List.length_drop]; omega, by simpa using hall⟩
      exact ⟨h1, h8, by rw [← htail, List.take_append_drop]⟩
    · rintro ⟨h1, h8, rfl⟩
      simp [h1, h8]

theorem unpadLenient_of_unpadStrict {w d : Bytes} (h : unpadStrict w = some d) : unpadLenient w = d := by
  obtain ⟨n, hlast, h1, h8, rfl⟩ := unpadStrict_eq_some_iff.mp h
  simp [unpadLenient, hlast, h1, h8]

/-- On whole blocks the count that strict unpadding takes off is the one PAD appends. -/
theorem eq_pad_of_unpadStrict {w d : Bytes} (hw : w.length % 8 = 0) (h : unpadStrict w = some d) : w = pad d := by
  obtain ⟨n, -, h1, h8, rfl⟩ := unpadStrict_eq_some_iff.mp h
  have hcount : padCount d = n.toNat := by
    rw [List.length_append, List.length_replicate] at hw
    rw [padCount]
    omega
  rw [pad, hcount, BitVec.ofNat_toNat, BitVec.setWidth_eq]

/-- Settles O43. -/
theorem strictUnpaddingInvertsPadding : Obligations.StrictUnpaddingInvertsPadding :=
  ⟨fun _ d hw => ⟨eq_pad_of_unpadStrict hw, fun h => h ▸ unpad_pad true d⟩, fun _ _ => unpadLenient_of_unpadStrict⟩

/-! ### MODE_ENC block by block -/

/-- What MODE_ENC answers for a message: the padded blocks under a binding (R236). -/
def ciphertext (c : Config) (keys : List Subkey) (b : Binding) (data : Bytes) : Bytes :=
  unblocks (encBlocks (cipher c .enc keys) b (blocks (pad data)))

@[simp] theorem ciphertext_length (c : Config) (keys : List Subkey) (b : Binding) (data : Bytes) :
    (ciphertext c keys b data).length = 8 * (data.length / 8 + 1) := by
  simp [ciphertext]

/-- A completing MODE_ENC: the answer's length, and its blocks as the mode function's entries. -/
theorem modeEnc_answers {s : State} {keys : List Subkey} {b : Binding} (h : Inv s) (hv : s.regs.modeValid = true)
    (hkeys : EngineKeys s keys) (hlen : s.dataIn.length ≤ s.cfg.maxDataLen) (hb : s.regs.readBinding = .ok b)
    (hc : counterOverflows s.cfg.ctrOverflow (s.dataIn.length / 8 + 1) b = false) :
    ∃ out, exec .modeEnc s = s.answering 0x00 out ∧ out.length = 8 * (s.dataIn.length / 8 + 1) ∧
      ∀ k, k < s.dataIn.length / 8 + 1 →
        blockAt out k = (encBlocks (cipher s.cfg .enc keys) b (blocks (pad s.dataIn))).getD k 0 := by
  obtain ⟨hengine, -, -⟩ := id h
  refine ⟨ciphertext s.cfg keys b s.dataIn, execModeEnc_ok hv hlen hb (readEngine_of_inv h (hengine hv) hkeys) hc,
    ciphertext_length s.cfg keys b s.dataIn, fun k hk => blockAt_unblocks_getD _ k ?_⟩
  simpa using hk

/-- Block k of the padded message, as an entry of its blocks. -/
theorem blocks_pad_getElem (d : Bytes) {k : Nat} (hk : k < d.length / 8 + 1) :
    ∃ hlt : k < (blocks (pad d)).length, (blocks (pad d))[k] = blockAt (pad d) k :=
  ⟨by simpa using hk, blocks_getElem _ k _⟩

theorem ecbMap_getElem (prim : Block → Block) (ws : List Block) {k : Nat} (hk : k < ws.length) :
    (ecbMap prim ws).getD k 0 = prim ws[k] := by
  simp [ecbMap, hk]

/-- Settles O30. -/
theorem modeEncEcb : Obligations.ModeEncEcb := by
  intro s keys h hv hkeys hkind hlen
  obtain ⟨out, hexec, hout, hblock⟩ := modeEnc_answers h hv hkeys hlen (readBinding_ecb hkind) rfl
  refine ⟨out, hexec, hout, fun k hk => ?_⟩
  obtain ⟨hlt, hpad⟩ := blocks_pad_getElem s.dataIn hk
  rw [hblock k hk, ← hpad]
  exact ecbMap_getElem _ _ hlt

/-- The chaining value of block k, read from the answer. -/
theorem chain_eq {xs : List Block} {out : Bytes} {n k : Nat} (iv : Block) (hk : k < n)
    (hblock : ∀ k, k < n → blockAt out k = xs.getD k 0) :
    (if k = 0 then iv else xs.getD (k - 1) 0) = if k = 0 then iv else blockAt out (k - 1) := by
  split
  · rfl
  · rw [hblock (k - 1) (by omega)]

/-- Settles O31. -/
theorem modeEncCbc : Obligations.ModeEncCbc := by
  intro s keys iv h hv hkeys hkind hiv hlen
  obtain ⟨out, hexec, hout, hblock⟩ := modeEnc_answers h hv hkeys hlen (readBinding_iv hkind hiv) rfl
  refine ⟨out, hexec, hout, fun k hk => ?_⟩
  obtain ⟨hlt, hpad⟩ := blocks_pad_getElem s.dataIn hk
  rw [← chain_eq iv hk hblock, hblock k hk, ← hpad]
  exact cbcEnc_getElem _ iv _ k hlt

/-- Settles O32. -/
theorem modeEncCfb : Obligations.ModeEncCfb := by
  intro s keys iv h hv hkeys hkind hiv hlen
  obtain ⟨out, hexec, hout, hblock⟩ := modeEnc_answers h hv hkeys hlen (readBinding_iv hkind hiv) rfl
  refine ⟨out, hexec, hout, fun k hk => ?_⟩
  obtain ⟨hlt, hpad⟩ := blocks_pad_getElem s.dataIn hk
  rw [← chain_eq iv hk hblock, hblock k hk, ← hpad]
  exact cfbEnc_getElem _ iv _ k hlt

/-- Settles O33. -/
theorem modeEncOfb : Obligations.ModeEncOfb := by
  intro s keys iv h hv hkeys hkind hiv hlen
  obtain ⟨out, hexec, hout, hblock⟩ := modeEnc_answers h hv hkeys hlen (readBinding_iv hkind hiv) rfl
  refine ⟨out, hexec, hout, fun k hk => ?_⟩
  obtain ⟨hlt, hpad⟩ := blocks_pad_getElem s.dataIn hk
  rw [hblock k hk, ← hpad]
  exact ofbXor_getElem _ iv _ k hlt

/-- The keystream of CTR, counted from block 0 (R245). -/
theorem ctrXor_zero_getElem (eb : Block → Block) (iv : Block) (ws : List Block) {k : Nat} (hk : k < ws.length) :
    (ctrXor eb iv 0 ws).getD k 0 = ws[k] ^^^ eb (BitVec.ofNat 64 (iv.toNat + k)) := by
  rw [ctrXor_getElem eb iv 0 ws k hk, Nat.zero_add]

/-- Settles O34. -/
theorem modeEncCtr : Obligations.ModeEncCtr := by
  intro s keys iv h hv hkeys hkind hiv hlen hrange
  have hc : counterOverflows s.cfg.ctrOverflow (s.dataIn.length / 8 + 1) (.ctr iv) = false :=
    counterOverflows_eq_false fun _ hctr => Binding.ctr.inj hctr ▸ hrange
  obtain ⟨out, hexec, hout, hblock⟩ := modeEnc_answers h hv hkeys hlen (readBinding_iv hkind hiv) hc
  refine ⟨out, hexec, hout, fun k hk => ?_⟩
  obtain ⟨hlt, hpad⟩ := blocks_pad_getElem s.dataIn hk
  rw [hblock k hk, ← hpad]
  exact ctrXor_zero_getElem _ iv _ hlt

/-! ### MODE_DEC block by block -/

/-- The two unpadding policies are the two cases of `unpad` (R237). -/
theorem answersUnpadded_of_unpad {s : State} {strict : Bool} {w : Bytes}
    (hok : ∀ out, unpad strict w = some out → execModeDec s = s.answering 0x00 out)
    (hfail : unpad strict w = none → execModeDec s = s.answering 0x04 []) : AnswersUnpadded s strict w := by
  cases strict with
  | false => exact ⟨fun _ => hok _ rfl, nofun, nofun⟩
  | true => exact ⟨nofun, fun _ => hok, fun _ => hfail⟩

/-- MODE_DEC past its checks: the decrypted bytes as the mode function's entries, and the answer by the policy. -/
theorem modeDec_answers {s : State} {keys : List Subkey} {strict : Bool} {b : Binding} (h : Inv s)
    (hv : s.regs.modeValid = true) (hkeys : EngineKeys s keys) (hs : s.regs.modeStrict = .holds strict)
    (hlen : s.dataIn.length ≤ s.cfg.maxDataLen) (h8 : s.dataIn.length % 8 = 0) (hb : s.regs.readBinding = .ok b)
    (hc : counterOverflows s.cfg.ctrOverflow (s.dataIn.length / 8) b = false) :
    ∃ w : Bytes, w.length = s.dataIn.length ∧
      (∀ k, k < s.dataIn.length / 8 → blockAt w k =
        (decBlocks (cipher s.cfg .enc keys) (cipher s.cfg .dec keys) b (blocks s.dataIn)).getD k 0) ∧
      AnswersUnpadded s strict w := by
  obtain ⟨hengine, -, -⟩ := id h
  obtain ⟨hok, hfail⟩ := execModeDec_ok hv hlen h8 hb (readEngine_of_inv h (hengine hv) hkeys) hs hc
  refine ⟨_, ?_, fun k hk => blockAt_unblocks_getD _ k ?_, answersUnpadded_of_unpad hok hfail⟩
  · rw [unblocks_length, decBlocks_length, blocks_length]
    omega
  · rwa [decBlocks_length, blocks_length]

/-- Block k of a message, as an entry of its blocks. -/
theorem blocks_data_getElem {d : Bytes} {k : Nat} (hk : k < d.length / 8) :
    ∃ hlt : k < (blocks d).length, (blocks d)[k] = blockAt d k :=
  ⟨by rwa [blocks_length], blocks_getElem _ k _⟩

/-- Settles O36. -/
theorem modeDecEcb : Obligations.ModeDecEcb := by
  intro s keys strict h hv hkeys hkind hs hlen h8
  obtain ⟨w, hw, hblock, hanswers⟩ := modeDec_answers h hv hkeys hs hlen h8 (readBinding_ecb hkind) rfl
  refine ⟨w, hw, fun k hk => ?_, hanswers⟩
  obtain ⟨hlt, hdata⟩ := blocks_data_getElem hk
  rw [hblock k hk, ← hdata]
  exact ecbMap_getElem _ _ hlt

theorem chain_data_eq {d : Bytes} {k : Nat} (iv : Block) (hk : k < d.length / 8) :
    (if k = 0 then iv else (blocks d).getD (k - 1) 0) = if k = 0 then iv else blockAt d (k - 1) :=
  chain_eq iv hk fun j hj => (blocks_getD d j hj).symm

/-- Settles O37. -/
theorem modeDecCbc : Obligations.ModeDecCbc := by
  intro s keys strict iv h hv hkeys hkind hiv hs hlen h8
  obtain ⟨w, hw, hblock, hanswers⟩ := modeDec_answers h hv hkeys hs hlen h8 (readBinding_iv hkind hiv) rfl
  refine ⟨w, hw, fun k hk => ?_, hanswers⟩
  obtain ⟨hlt, hdata⟩ := blocks_data_getElem hk
  rw [← chain_data_eq iv hk, hblock k hk, ← hdata]
  exact cbcDec_getElem _ iv _ k hlt

/-- Settles O38. -/
theorem modeDecCfb : Obligations.ModeDecCfb := by
  intro s keys strict iv h hv hkeys hkind hiv hs hlen h8
  obtain ⟨w, hw, hblock, hanswers⟩ := modeDec_answers h hv hkeys hs hlen h8 (readBinding_iv hkind hiv) rfl
  refine ⟨w, hw, fun k hk => ?_, hanswers⟩
  obtain ⟨hlt, hdata⟩ := blocks_data_getElem hk
  rw [← chain_data_eq iv hk, hblock k hk, ← hdata]
  exact cfbDec_getElem _ iv _ k hlt

/-- Settles O39. -/
theorem modeDecOfbAndCtr : Obligations.ModeDecOfbAndCtr := by
  rintro s keys strict iv h hv hkeys (hkind | ⟨hkind, hrange⟩) hiv hs hlen h8
  · obtain ⟨w, hw, hblock, hanswers⟩ := modeDec_answers h hv hkeys hs hlen h8 (readBinding_iv hkind hiv) rfl
    refine ⟨w, hw, fun _ k hk => ?_, fun hctr => ?_, hanswers⟩
    · obtain ⟨hlt, hdata⟩ := blocks_data_getElem hk
      rw [hblock k hk, ← hdata]
      exact ofbXor_getElem _ iv _ k hlt
    · rw [hkind] at hctr
      cases hctr
  · have hc : counterOverflows s.cfg.ctrOverflow (s.dataIn.length / 8) (.ctr iv) = false :=
      counterOverflows_eq_false fun _ hctr => Binding.ctr.inj hctr ▸ hrange
    obtain ⟨w, hw, hblock, hanswers⟩ := modeDec_answers h hv hkeys hs hlen h8 (readBinding_iv hkind hiv) hc
    refine ⟨w, hw, fun hofb => ?_, fun _ k hk => ?_, hanswers⟩
    · rw [hkind] at hofb
      cases hofb
    · obtain ⟨hlt, hdata⟩ := blocks_data_getElem hk
      rw [hblock k hk, ← hdata]
      exact ctrXor_zero_getElem _ iv _ hlt

end Sys2Proof.Machine

/-! PROOFS. The mode layer's errors (60_exceptions.md R303, R309, R311 to R313) and derived laws (42_modes.md R248, R250,
R251). -/

namespace Sys2Proof.Machine

/-! ### Errors -/

theorem answering_inj {s : State} {st st' : BitVec 8} {out out' : Bytes}
    (h : s.answering st out = s.answering st' out') : st = st' ∧ out = out' := by
  cases h
  exact ⟨rfl, rfl⟩

/-- MODE_ENC answers CounterOverflow exactly where the counter check raises it. -/
theorem execModeEnc_eq_counterOverflow_iff {s : State} {b : Binding} (hv : s.regs.modeValid = true)
    (hlen : s.dataIn.length ≤ s.cfg.maxDataLen) (hb : s.regs.readBinding = .ok b) :
    execModeEnc s = s.answering 0x09 [] ↔ counterOverflows s.cfg.ctrOverflow (s.dataIn.length / 8 + 1) b = true := by
  refine ⟨fun h => ?_, execModeEnc_counterOverflow hv hlen hb⟩
  by_contra hc
  have hc := Bool.eq_false_of_not_eq_true hc
  cases hk : s.regs.readEngine with
  | error why =>
    rw [execModeEnc_engine_fault hv hlen hb hc hk] at h
    cases h
  | ok keys =>
    rw [execModeEnc_ok hv hlen hb hk hc] at h
    exact absurd (answering_inj h).1 (by decide)

/-- The same for MODE_DEC. -/
theorem execModeDec_eq_counterOverflow_iff {s : State} {b : Binding} (hv : s.regs.modeValid = true)
    (hlen : s.dataIn.length ≤ s.cfg.maxDataLen) (h8 : s.dataIn.length % 8 = 0) (hb : s.regs.readBinding = .ok b) :
    execModeDec s = s.answering 0x09 [] ↔ counterOverflows s.cfg.ctrOverflow (s.dataIn.length / 8) b = true := by
  refine ⟨fun h => ?_, execModeDec_counterOverflow hv hlen h8 hb⟩
  by_contra hc
  have hc := Bool.eq_false_of_not_eq_true hc
  cases hk : s.regs.readEngine with
  | error why =>
    rw [execModeDec_engine_fault hv hlen h8 hb hc hk] at h
    cases h
  | ok keys =>
    cases hs : s.regs.modeStrict with
    | unwritten =>
      rw [execModeDec_strict_fault hv hlen h8 hb hc hk hs] at h
      cases h
    | holds strict =>
      obtain ⟨hok, hfail⟩ := execModeDec_ok hv hlen h8 hb hk hs hc
      cases hout : unpad strict
          (unblocks (decBlocks (cipher s.cfg .enc keys) (cipher s.cfg .dec keys) b (blocks s.dataIn))) with
      | some out =>
        rw [hok out hout] at h
        exact absurd (answering_inj h).1 (by decide)
      | none =>
        rw [hfail hout] at h
        exact absurd (answering_inj h).1 (by decide)

/-- Settles O35. -/
theorem modeEncErrors : Obligations.ModeEncErrors := by
  refine fun s => ⟨execModeEnc_noMode, execModeEnc_dataTooLong, fun iv hv hlen hkind hiv => ?_⟩
  have hiff := (execModeEnc_eq_counterOverflow_iff hv hlen (readBinding_iv hkind hiv)).trans counterOverflows_ctr_iff
  rw [Nat.add_sub_cancel, and_iff_right (Nat.succ_pos _)] at hiff
  exact hiff.symm

/-- Settles O40. -/
theorem modeDecErrors : Obligations.ModeDecErrors := by
  refine fun s => ⟨execModeDec_noMode, execModeDec_dataTooLong, execModeDec_invalidBlockLength,
    fun iv hv hlen h8 hkind hiv => ?_⟩
  exact ((execModeDec_eq_counterOverflow_iff hv hlen h8 (readBinding_iv hkind hiv)).trans counterOverflows_ctr_iff).symm

/-! ### MODE_DEC of what MODE_ENC answers -/

/-- Decrypting the blocks of a ciphertext gives the padded message (R250). -/
theorem decBlocks_ciphertext (c : Config) (keys : List Subkey) (b : Binding) (data : Bytes) :
    unblocks (decBlocks (cipher c .enc keys) (cipher c .dec keys) b (blocks (ciphertext c keys b data))) = pad data := by
  have hwhole : (pad data).length % 8 = 0 := by rw [pad_length]; omega
  rw [ciphertext, blocks_unblocks, decBlocks_encBlocks _ _ (cipher_dec_enc c keys), unblocks_blocks _ hwhole]

/-- MODE_DEC answers the message for its ciphertext under the engine and the binding that made it, by either policy. -/
theorem execModeDec_ciphertext {s : State} {keys : List Subkey} {b : Binding} {strict : Bool} {data : Bytes}
    (hv : s.regs.modeValid = true) (hdata : s.dataIn = ciphertext s.cfg keys b data)
    (hlen : data.length + 8 ≤ s.cfg.maxDataLen) (hb : s.regs.readBinding = .ok b)
    (hk : s.regs.readEngine = .ok keys) (hs : s.regs.modeStrict = .holds strict)
    (hc : counterOverflows s.cfg.ctrOverflow (data.length / 8 + 1) b = false) :
    execModeDec s = s.answering 0x00 data := by
  have hlength : s.dataIn.length = 8 * (data.length / 8 + 1) := by rw [hdata, ciphertext_length]
  have hblocks : s.dataIn.length / 8 = data.length / 8 + 1 := by omega
  obtain ⟨hok, -⟩ := execModeDec_ok hv (by omega) (by omega) hb hk hs (hblocks ▸ hc)
  exact hok data (by rw [hdata, decBlocks_ciphertext, unpad_pad])

/-- Settles O44. The induction over the blocks is `decBlocks_encBlocks`, kind by kind. -/
theorem modeDecryptionUndoesModeEncryption : Obligations.ModeDecryptionUndoesModeEncryption := by
  intro s h hv hlen hrange
  obtain ⟨hengine, -, hbound⟩ := id h
  obtain ⟨keys, hk⟩ := readEngine_exists h (hengine hv)
  obtain ⟨b, hb⟩ := readBinding_bound (hbound hv)
  obtain ⟨_, strict, -, hs, -⟩ := hbound hv
  have hc := counterOverflows_of_counterInRange hb hrange
  refine ⟨ciphertext s.cfg keys b s.dataIn, execModeEnc_ok hv (by omega) hb hk hc, ?_⟩
  exact execModeDec_ciphertext (s := { s with dataIn := ciphertext s.cfg keys b s.dataIn }) hv rfl hlen hb hk hs hc

/-! ### Lengths -/

/-- A delivered response with STATUS OK is a success, and OUT is what was delivered. -/
theorem out_of_respond {s : State} {st : Status} {out out' : Bytes}
    (h : (s.respond st out').response = some ⟨0x00, out⟩) : st.code = 0x00 ∧ out' = out :=
  Response.mk.inj (Option.some.inj h)

theorem execModeEnc_out_length {s t : State} {out : Bytes} (h : execModeEnc s = .next t)
    (hout : t.response = some ⟨0x00, out⟩) : out.length = 8 * (s.dataIn.length / 8 + 1) := by
  rcases execModeEnc_cases h with ⟨-, rfl⟩ | ⟨-, -, rfl⟩ | ⟨-, -, b, -, ⟨-, rfl⟩ | ⟨-, keys, -, rfl⟩⟩
  case inr.inr.inr =>
    obtain ⟨-, rfl⟩ := out_of_respond hout
    exact ciphertext_length s.cfg keys b s.dataIn
  all_goals exact absurd (out_of_respond hout).1 (by decide)

/-- Strict unpadding takes at least one byte, either policy at most eight (R231, R232). -/
theorem unpad_length {strict : Bool} {w out : Bytes} (h : unpad strict w = some out) :
    ∃ n, n ≤ 8 ∧ out.length + n = w.length ∧ (strict = true → 1 ≤ n) := by
  cases strict with
  | false =>
    obtain rfl : unpadLenient w = out := Option.some.inj h
    obtain ⟨n, h8, hlen⟩ := unpadLenient_length w
    exact ⟨n, h8, hlen, nofun⟩
  | true =>
    obtain ⟨n, h1, h8, hlen⟩ := unpadStrict_length w out h
    exact ⟨n, h8, hlen, fun _ => h1⟩

theorem execModeDec_out_length {s t : State} {out : Bytes} (h : execModeDec s = .next t)
    (hout : t.response = some ⟨0x00, out⟩) :
    ∃ n, n ≤ 8 ∧ out.length + n = s.dataIn.length ∧ (s.regs.modeStrict = .holds true → 1 ≤ n) := by
  rcases execModeDec_cases h with ⟨-, rfl⟩ | ⟨-, -, rfl⟩ | ⟨-, -, -, rfl⟩ |
      ⟨-, -, h8, b, -, ⟨-, rfl⟩ | ⟨-, keys, strict, -, hs, ⟨out', hunpad, rfl⟩ | ⟨-, rfl⟩⟩⟩
  case inr.inr.inr.inr.inl =>
    obtain ⟨-, rfl⟩ := out_of_respond hout
    obtain ⟨n, hn, hlen, hstrict⟩ := unpad_length hunpad
    rw [unblocks_length, decBlocks_length, blocks_length] at hlen
    refine ⟨n, hn, by omega, fun htrue => hstrict ?_⟩
    rw [hs] at htrue
    exact Reg.holds.inj htrue
  all_goals exact absurd (out_of_respond hout).1 (by decide)

/-- Settles O45. -/
theorem lengthsOfModeResults : Obligations.LengthsOfModeResults :=
  ⟨fun _ _ _ => execModeEnc_out_length, fun _ _ _ => execModeDec_out_length⟩

/-! ### The first keystream block -/

/-- MODE_ENC with MODE_KIND replaced, the engine and the IV standing. -/
theorem modeEnc_setKind {s : State} {keys : List Subkey} {iv : Block} (kind : Kind) (hv : s.regs.modeValid = true)
    (hk : s.regs.readEngine = .ok keys) (hiv : s.regs.iv = .holds iv) (hlen : s.dataIn.length ≤ s.cfg.maxDataLen)
    (hrange : CtrInRange s iv (s.dataIn.length / 8 + 1)) :
    exec .modeEnc (s.setKind kind) =
      (s.setKind kind).answering 0x00 (ciphertext s.cfg keys (.ofKind kind iv) s.dataIn) := by
  refine execModeEnc_ok hv hlen (readBinding_iv (setKind_modeKind kind s) hiv) ((setKind_readEngine kind s).trans hk)
    (counterOverflows_eq_false fun iv' hctr => ?_)
  have hsame : iv = iv' := by
    cases kind <;> cases hctr
    rfl
  exact hsame ▸ hrange

/-- The first 8 bytes of a ciphertext, under a binding whose first keystream block is the encrypted IV. -/
theorem ciphertext_take_eight {c : Config} {keys : List Subkey} {b : Binding} {iv : Block} (data : Bytes)
    (hb : ∀ w ws, (encBlocks (cipher c .enc keys) b (w :: ws)).head? = some (w ^^^ cipher c .enc keys iv)) :
    (ciphertext c keys b data).take 8 = bytes8 (blockAt (pad data) 0 ^^^ cipher c .enc keys iv) := by
  obtain ⟨hlt, hfirst⟩ := blocks_pad_getElem data (k := 0) (by omega)
  obtain ⟨w, ws, hws⟩ := List.exists_cons_of_length_pos hlt
  simp only [hws, List.getElem_cons_zero] at hfirst
  subst hfirst
  obtain ⟨xs, hxs⟩ := List.head?_eq_some_iff.mp (hb (blockAt (pad data) 0) ws)
  rw [ciphertext, hws, hxs, unblocks_cons, List.take_left' (bytes8_length _)]

/-- Settles O46. -/
theorem firstKeystreamBlockIsShared : Obligations.FirstKeystreamBlockIsShared := by
  intro s iv h hv hiv hlen hrange
  obtain ⟨hengine, -, -⟩ := id h
  obtain ⟨keys, hk⟩ := readEngine_exists h (hengine hv)
  have hcfb := ciphertext_take_eight (b := .cfb iv) (c := s.cfg) (keys := keys) s.dataIn fun _ _ => rfl
  have hofb := ciphertext_take_eight (b := .ofb iv) (c := s.cfg) (keys := keys) s.dataIn fun _ _ => rfl
  have hctr := ciphertext_take_eight (b := .ctr iv) (c := s.cfg) (keys := keys) (iv := iv) s.dataIn fun w ws => by
    simp [encBlocks, ctrXor, counterBlock]
  exact ⟨_, _, _, modeEnc_setKind .cfb hv hk hiv hlen hrange, modeEnc_setKind .ofb hv hk hiv hlen hrange,
    modeEnc_setKind .ctr hv hk hiv hlen hrange, hcfb.trans hofb.symm, hofb.trans hctr.symm⟩

end Sys2Proof.Machine

/-! PROOFS. Reads of unwritten registers (10_state.md R46): the fault names the first one read, and the reads come in the
order ROUNDS, SUBKEY from entry 0 up, for a mode command after MODE_KIND and IV and before MODE_STRICT. -/

namespace Sys2Proof.Machine

/-! ### The engine's registers -/

theorem readEngine_of_rounds_unwritten {r : Regs} (h : r.rounds = .unwritten) :
    r.readEngine = .error (.readUnwritten .rounds) := by
  rw [Regs.readEngine, h, read_unwritten]

theorem readSubkey_eq (r : Regs) (i : Fin 32) : r.readSubkey i = r.subkey[i].read (.subkey i) := by
  simp [Regs.readSubkey]

/-- An entry that is not unwritten holds a value. -/
theorem readSubkey_of_written {r : Regs} {i : Nat} (hi : i < 32) (h : r.subkey[(⟨i, hi⟩ : Fin 32)] ≠ .unwritten) :
    ∃ k, r.readSubkey i = .ok k := by
  rw [readSubkey_eq r ⟨i, hi⟩]
  cases hread : r.subkey[(⟨i, hi⟩ : Fin 32)] with
  | unwritten => exact absurd hread h
  | holds k => exact ⟨k, read_holds _ k⟩

/-- Reading entries one after another stops at the first that faults. -/
theorem readSubkeys_append_error {r : Regs} {is : List Nat} {i : Nat} {why : Fault} (later : List Nat)
    (hbefore : ∀ j ∈ is, ∃ k, r.readSubkey j = .ok k) (hi : r.readSubkey i = .error why) :
    r.readSubkeys (is ++ i :: later) = .error why := by
  induction is with
  | nil => rw [List.nil_append, Regs.readSubkeys, hi]
  | cons j is ih =>
    obtain ⟨⟨k, hk⟩, hrest⟩ := List.forall_mem_cons.mp hbefore
    rw [List.cons_append, Regs.readSubkeys, hk, ih hrest]

theorem readSubkeys_of_written {r : Regs} {is : List Nat} (h : ∀ j ∈ is, ∃ k, r.readSubkey j = .ok k) :
    ∃ keys, r.readSubkeys is = .ok keys := by
  induction is with
  | nil => exact ⟨[], rfl⟩
  | cons j is ih =>
    obtain ⟨⟨k, hk⟩, hrest⟩ := List.forall_mem_cons.mp h
    obtain ⟨keys, hkeys⟩ := ih hrest
    exact ⟨k :: keys, by rw [Regs.readSubkeys, hk, hkeys]⟩

/-- The entries 0 to n − 1, split at entry j. -/
theorem range_split {j n : Nat} (h : j < n) : ∃ later, List.range n = List.range j ++ j :: later := by
  obtain ⟨m, rfl⟩ : ∃ m, n = j + (m + 1) := ⟨n - j - 1, by omega⟩
  exact ⟨((List.range m).map Nat.succ).map (j + ·), by
    rw [List.range_add, List.range_succ_eq_map, List.map_cons, Nat.add_zero]⟩

theorem readEngine_of_firstUnwritten {s : State} {j : Fin 32} (h : FirstUnwrittenSubkey s j) :
    s.regs.readEngine = .error (.readUnwritten (.subkey j)) := by
  obtain ⟨n, hrounds, hj, hunwritten, hbefore⟩ := h
  obtain ⟨later, hsplit⟩ := range_split hj
  rw [Regs.readEngine, hrounds, read_holds]
  simp only [hsplit]
  refine readSubkeys_append_error later (fun i hi => ?_) ?_
  · have hlt : i < j.val := List.mem_range.mp hi
    exact readSubkey_of_written (by omega) (hbefore ⟨i, by omega⟩ hlt)
  · rw [readSubkey_eq, hunwritten, read_unwritten]

theorem readEngine_of_held {s : State} (h : EngineHeld s) : ∃ keys, s.regs.readEngine = .ok keys := by
  obtain ⟨n, hrounds, hle, hwritten⟩ := h
  rw [Regs.readEngine, hrounds, read_holds]
  refine readSubkeys_of_written fun i hi => ?_
  have hlt : i < n.toNat := List.mem_range.mp hi
  exact readSubkey_of_written (by omega) (hwritten ⟨i, by omega⟩ hlt)

/-! ### The binding's registers -/

theorem readBinding_of_kind_unwritten {r : Regs} (h : r.modeKind = .unwritten) :
    r.readBinding = .error (.readUnwritten .modeKind) := by
  rw [Regs.readBinding, h, read_unwritten]

theorem readBinding_of_iv_unwritten {r : Regs} {kind : Kind} (hkind : r.modeKind = .holds kind) (hchained : kind ≠ .ecb)
    (hiv : r.iv = .unwritten) : r.readBinding = .error (.readUnwritten .iv) := by
  rw [readBinding_of_kind hkind]
  cases kind with
  | ecb => exact absurd rfl hchained
  | cbc | cfb | ofb | ctr => rw [Regs.readBindingOf, hiv, read_unwritten]; rfl

theorem readBinding_of_held {s : State} (h : BindingHeld s) : ∃ b, s.regs.readBinding = .ok b := by
  obtain ⟨kind, hkind, hchained⟩ := h
  cases hiv : s.regs.iv with
  | holds iv => exact ⟨_, readBinding_iv hkind hiv⟩
  | unwritten =>
    obtain rfl : kind = .ecb := by
      by_contra hne
      exact hchained hne hiv
    exact ⟨_, readBinding_ecb hkind⟩

/-! ### The commands -/

theorem blockCommand_faults {s : State} (dir : Dir) (hv : s.regs.engineValid = true) (hlen : s.dataIn.length = 8) :
    (s.regs.rounds = .unwritten → blockCommand dir s = .fault (.readUnwritten .rounds)) ∧
    (∀ j, FirstUnwrittenSubkey s j → blockCommand dir s = .fault (.readUnwritten (.subkey j.val))) :=
  ⟨fun h => blockCommand_fault dir hv hlen (readEngine_of_rounds_unwritten h),
   fun _ h => blockCommand_fault dir hv hlen (readEngine_of_firstUnwritten h)⟩

/-- Settles O53. -/
theorem readingAnUnwrittenRegisterFaults : Obligations.ReadingAnUnwrittenRegisterFaults := by
  refine ⟨?block, ?mode, fun s i why h => exec_ne_fault_of_inv h i why⟩
  case block =>
    rintro s i (rfl | rfl) hv hlen
    · exact blockCommand_faults .enc hv hlen
    · exact blockCommand_faults .dec hv hlen
  case mode =>
    rintro s i (rfl | ⟨rfl, h8⟩) hv hlen
    · refine ⟨fun hkind => execModeEnc_binding_fault hv hlen (readBinding_of_kind_unwritten hkind),
        fun kind hkind hchained hiv => execModeEnc_binding_fault hv hlen (readBinding_of_iv_unwritten hkind hchained hiv),
        fun hheld hrange => ?_⟩
      obtain ⟨b, hb⟩ := readBinding_of_held hheld
      have hc := counterOverflows_of_counterInRange hb hrange
      exact ⟨fun h => execModeEnc_engine_fault hv hlen hb hc (readEngine_of_rounds_unwritten h),
        fun _ h => execModeEnc_engine_fault hv hlen hb hc (readEngine_of_firstUnwritten h), nofun⟩
    · refine ⟨fun hkind => execModeDec_binding_fault hv hlen h8 (readBinding_of_kind_unwritten hkind),
        fun kind hkind hchained hiv =>
          execModeDec_binding_fault hv hlen h8 (readBinding_of_iv_unwritten hkind hchained hiv),
        fun hheld hrange => ?_⟩
      obtain ⟨b, hb⟩ := readBinding_of_held hheld
      have hc := counterOverflows_of_counterInRange hb hrange
      refine ⟨fun h => execModeDec_engine_fault hv hlen h8 hb hc (readEngine_of_rounds_unwritten h),
        fun _ h => execModeDec_engine_fault hv hlen h8 hb hc (readEngine_of_firstUnwritten h), fun _ hengine hs => ?_⟩
      obtain ⟨keys, hk⟩ := readEngine_of_held hengine
      exact execModeDec_strict_fault hv hlen h8 hb hc hk hs

end Sys2Proof.Machine

/-! PROOFS. The expansions of ENCRYPT and DECRYPT (30_encoding.md R116), request by request. -/

namespace Sys2Proof.Machine

/-! ### One request -/

/-- A request that the host issues is taken next: its instruction runs on the captured operands. -/
theorem transact_eq_exec {s : State} {r : Request} {i : Instr} (hs : shapeOk s.cfg.tables = true)
    (hi : decode r.cmd = .ok i) : transact r s = exec i (s.accept r s.pending) := by
  rw [transact, step_request (s := s.issue r) hs (issue_pending r s), runWord, hi]
  rfl

theorem runExpansion_cons {r : Request} {s t : State} (rs : List Request) (h : transact r s = .next t) :
    runExpansion (r :: rs) s = if t.responseOk then runExpansion rs t else .next t := by
  rw [runExpansion, h]

theorem runExpansion_singleton (r : Request) (s : State) : runExpansion [r] s = transact r s := by
  rw [runExpansion]
  cases transact r s with
  | next t => exact ite_self _
  | fault why | refused why => rfl

theorem exec_modeInitInstr (kind : Kind) (ivp strict : Bool) (s : State) :
    exec (modeInitInstr kind ivp strict) s = modeInit kind ivp strict s := by
  cases kind <;> rfl

theorem transact_asmModeInit {s : State} (hs : shapeOk s.cfg.tables = true) (kind : Kind) (iv : Option Bytes)
    (strict : Bool) : transact (asmModeInit kind iv strict) s =
      modeInit kind iv.isSome strict (s.accept (asmModeInit kind iv strict) s.pending) := by
  rw [transact_eq_exec hs (decode_encode_modeInit kind iv.isSome strict), exec_modeInitInstr]

/-! ### The first request: ENGINE_INIT -/

/-- The ENGINE_INIT request of a key and a count. -/
def engineInitRequest (key : Bytes) (n : Nat) : Request := ⟨encode (.engineInit n), key, [], []⟩

theorem asmEngineInit_refuses (key : Bytes) {rounds : Option Nat} (h : 255 < rounds.getD 16) :
    asmEngineInit key rounds = none :=
  if_neg (Nat.not_le.mpr h)

theorem asmEngineInit_accepts (key : Bytes) {rounds : Option Nat} (h : rounds.getD 16 ≤ 255) :
    asmEngineInit key rounds = some (engineInitRequest key (rounds.getD 16)) :=
  if_pos h

theorem transact_engineInit {s : State} (hs : shapeOk s.cfg.tables = true) (key : Bytes) {n : Nat} (hn : n ≤ 255) :
    transact (engineInitRequest key n) s = execEngineInit n (s.accept (engineInitRequest key n) s.pending) :=
  transact_eq_exec (i := .engineInit n) hs (decode_encode_engineInit hn)

theorem runExpansion_invalidRounds {s : State} (hs : shapeOk s.cfg.tables = true) (key : Bytes) {n : Nat} (hn : n ≤ 255)
    (hillegal : n < 8 ∨ 32 < n) (rs : List Request) :
    ∃ t, runExpansion (engineInitRequest key n :: rs) s = .next t ∧ t.response = some ⟨0x02, []⟩ ∧ t.regs = s.regs :=
  ⟨_, runExpansion_cons rs ((transact_engineInit hs key hn).trans (execEngineInit_of_illegal_count _ hillegal)), rfl, rfl⟩

/-- A legal ENGINE_INIT builds the engine, and the expansion goes on. -/
theorem runExpansion_engineInit {s : State} (hs : shapeOk s.cfg.tables = true) (key : Bytes) {n : Nat} (h8 : 8 ≤ n)
    (h32 : n ≤ 32) (rs : List Request) :
    ∃ t, runExpansion (engineInitRequest key n :: rs) s = runExpansion rs t ∧ t.cfg = s.cfg ∧
      t.regs = s.regs.buildEngine s.cfg.tables (normKey key) n :=
  ⟨_, runExpansion_cons rs ((transact_engineInit hs key (by omega)).trans (execEngineInit_ok _ h8 h32)), rfl, rfl⟩

/-! ### The second request: MODE_INIT -/

section ModeInitRequest
variable {s : State} (hs : shapeOk s.cfg.tables = true) (hv : s.regs.engineValid = true) {kind : Kind} (strict : Bool)
  (rs : List Request)
include hs hv

theorem runExpansion_missingIV (hkind : kind ≠ .ecb) :
    ∃ t, runExpansion (asmModeInit kind none strict :: rs) s = .next t ∧ t.response = some ⟨0x03, []⟩ ∧
      t.regs = s.regs :=
  ⟨_, runExpansion_cons rs ((transact_asmModeInit hs kind none strict).trans (modeInit_missingIV strict hv hkind)),
    rfl, rfl⟩

theorem runExpansion_invalidIVLength (hkind : kind ≠ .ecb) {v : Bytes} (hlen : v.length ≠ 8) :
    ∃ t, runExpansion (asmModeInit kind (some v) strict :: rs) s = .next t ∧ t.response = some ⟨0x08, []⟩ ∧
      t.regs = s.regs :=
  ⟨_, runExpansion_cons rs ((transact_asmModeInit hs kind (some v) strict).trans
    (modeInit_invalidIVLength strict hv hkind hlen)), rfl, rfl⟩

/-- A MODE_INIT whose IV is there, if its kind has one, binds the mode, and the expansion goes on. -/
theorem runExpansion_modeInit {iv : Option Bytes} (hiv : kind ≠ .ecb → ∃ v, iv = some v ∧ v.length = 8) :
    ∃ (t : State) (r : Regs), runExpansion (asmModeInit kind iv strict :: rs) s = runExpansion rs t ∧ t.cfg = s.cfg ∧
      t.regs = r.bindMode kind strict ∧ r.rounds = s.regs.rounds ∧ r.subkey = s.regs.subkey ∧
      (kind ≠ .ecb → r.iv = .holds (be64 (iv.getD []))) := by
  by_cases hkind : kind = .ecb
  · subst hkind
    exact ⟨_, s.regs, runExpansion_cons rs ((transact_asmModeInit hs .ecb iv strict).trans (modeInit_ecb _ strict hv)),
      rfl, rfl, rfl, rfl, fun hne => absurd rfl hne⟩
  · obtain ⟨v, rfl, hlen⟩ := hiv hkind
    exact ⟨_, s.regs.setIv (be64 v), runExpansion_cons rs ((transact_asmModeInit hs kind (some v) strict).trans
      (modeInit_chained strict hv hkind hlen)), rfl, rfl, rfl, rfl, fun _ => rfl⟩

end ModeInitRequest

/-! ### The stops of an expansion -/

/-- Both lines expand to ENGINE_INIT, MODE_INIT and one data command. -/
theorem assemble_eq_three {line : AsmLine} {kind : Kind} {key data : Bytes} {iv : Option Bytes} {rounds : Option Nat}
    (h : line = .encrypt kind key iv rounds data ∨ ∃ strict, line = .decrypt kind key iv rounds strict data) :
    ∃ strict last, assemble line = (asmEngineInit key rounds).map ([·, asmModeInit kind iv strict, last]) := by
  rcases h with rfl | ⟨strict, rfl⟩
  · exact ⟨false, _, rfl⟩
  · exact ⟨strict, _, rfl⟩

/-- Settles O58. -/
theorem expansionStopsAtTheFirstError : Obligations.ExpansionStopsAtTheFirstError := by
  refine ⟨fun r rs s t h => ⟨fun hfail => ?_, fun hok => ?_⟩, fun s line kind key data iv rounds hline hs => ?_⟩
  · simp [runExpansion_cons rs h, hfail]
  · simp [runExpansion_cons rs h, hok]
  obtain ⟨strict, last, hassemble⟩ := assemble_eq_three hline
  have haccepts : rounds.getD 16 ≤ 255 → assemble line =
      some [engineInitRequest key (rounds.getD 16), asmModeInit kind iv strict, last] := fun hn => by
    rw [hassemble, asmEngineInit_accepts key hn, Option.map_some]
  refine ⟨fun hlarge => ?_, fun hillegal => ?_, fun h8 h32 hkind hiv => ?_, fun v h8 h32 hkind hiv hlen => ?_⟩
  · rw [hassemble, asmEngineInit_refuses key hlarge, Option.map_none]
  · obtain ⟨t, hrun, ht⟩ := runExpansion_invalidRounds hs key (n := rounds.getD 16) (by omega) (by omega)
      [asmModeInit kind iv strict, last]
    exact ⟨_, t, haccepts (by omega), hrun, ht⟩
  all_goals
    obtain ⟨t, hrun, hcfg, hregs⟩ := runExpansion_engineInit hs key h8 h32 [asmModeInit kind iv strict, last]
    have hst : shapeOk t.cfg.tables = true := hcfg ▸ hs
    have hv : t.regs.engineValid = true := by rw [hregs, buildEngine_engineValid]
    subst hiv
  · obtain ⟨t', hrun', hresponse, hregs'⟩ := runExpansion_missingIV hst hv strict [last] hkind
    exact ⟨_, t', haccepts (by omega), hrun.trans hrun', hresponse, hregs'.trans hregs⟩
  · obtain ⟨t', hrun', hresponse, hregs'⟩ := runExpansion_invalidIVLength hst hv strict [last] hkind hlen
    exact ⟨_, t', haccepts (by omega), hrun.trans hrun', hresponse, hregs'.trans hregs⟩

/-! ### ENCRYPT and DECRYPT -/

/-- A machine in which an engine and a mode are bound, as a data command reads them. -/
structure ReadyWith (c : Config) (keys : List Subkey) (b : Binding) (strict : Bool) (s : State) : Prop where
  cfg : s.cfg = c
  modeValid : s.regs.modeValid = true
  engine : s.regs.readEngine = .ok keys
  binding : s.regs.readBinding = .ok b
  modeStrict : s.regs.modeStrict = .holds strict

/-- The first two commands of an expansion leave a machine that is ready with the line's key, count, kind and IV, from
whatever state they start. -/
theorem runExpansion_ready {s : State} {kind : Kind} {iv : Option Bytes} (hs : shapeOk s.cfg.tables = true) (key : Bytes)
    {n : Nat} (h8 : 8 ≤ n) (h32 : n ≤ 32) (hiv : kind ≠ .ecb → ∃ v, iv = some v ∧ v.length = 8) (strict : Bool)
    (rs : List Request) :
    ∃ t, runExpansion (engineInitRequest key n :: asmModeInit kind iv strict :: rs) s = runExpansion rs t ∧
      ReadyWith s.cfg (ks s.cfg.tables (normKey key) n) (.ofKind kind (be64 (iv.getD []))) strict t := by
  obtain ⟨t, hrun, hcfg, hregs⟩ := runExpansion_engineInit hs key h8 h32 (asmModeInit kind iv strict :: rs)
  have hv : t.regs.engineValid = true := by rw [hregs, buildEngine_engineValid]
  obtain ⟨t', r, hrun', hcfg', hregs', hrounds, hsubkey, hbound⟩ := runExpansion_modeInit (hcfg ▸ hs) hv strict rs hiv
  refine ⟨t', hrun.trans hrun', hcfg'.trans hcfg, by rw [hregs', bindMode_modeValid], ?_, ?_,
    by rw [hregs', bindMode_modeStrict]⟩
  · rw [hregs', readEngine_congr (r := t.regs) (r' := r.bindMode kind strict) hrounds hsubkey, hregs]
    exact readEngine_buildEngine s.cfg.tables s.regs (normKey_length key) h8 h32
  · have hkind : t'.regs.modeKind = .holds kind := by rw [hregs', bindMode_modeKind]
    by_cases hecb : kind = .ecb
    · subst hecb
      exact readBinding_ecb hkind
    · exact readBinding_iv hkind (by rw [hregs', bindMode_iv, hbound hecb])

section Ready
variable {c : Config} {keys : List Subkey} {b : Binding} {strict : Bool} {s : State}

/-- MODE_ENC as the last command of an expansion. -/
theorem ReadyWith.transact_modeEnc (h : ReadyWith c keys b strict s) (hc : shapeOk c.tables = true) {data : Bytes}
    (hlen : data.length ≤ c.maxDataLen) (hcount : counterOverflows c.ctrOverflow (data.length / 8 + 1) b = false) :
    ∃ t, transact ⟨encode .modeEnc, [], [], data⟩ s = .next t ∧ t.response = some ⟨0x00, ciphertext c keys b data⟩ := by
  obtain ⟨rfl, hv, hk, hb, -⟩ := h
  exact ⟨_, (transact_eq_exec (i := .modeEnc) hc (encodedInstructionDecodesToItself .modeEnc rfl)).trans
    (execModeEnc_ok (s := s.accept ⟨encode .modeEnc, [], [], data⟩ s.pending) hv hlen hb hk hcount), rfl⟩

/-- MODE_DEC as the last command, on a ciphertext of the same engine and binding. -/
theorem ReadyWith.transact_modeDec (h : ReadyWith c keys b strict s) (hc : shapeOk c.tables = true) {data : Bytes}
    (hlen : data.length + 8 ≤ c.maxDataLen) (hcount : counterOverflows c.ctrOverflow (data.length / 8 + 1) b = false) :
    ∃ t, transact ⟨encode .modeDec, [], [], ciphertext c keys b data⟩ s = .next t ∧ t.response = some ⟨0x00, data⟩ := by
  obtain ⟨rfl, hv, hk, hb, hs⟩ := h
  exact ⟨_, (transact_eq_exec (i := .modeDec) hc (encodedInstructionDecodesToItself .modeDec rfl)).trans (execModeDec_ciphertext
    (s := s.accept ⟨encode .modeDec, [], [], ciphertext s.cfg keys b data⟩ s.pending) hv rfl hlen hb hk hs hcount), rfl⟩

end Ready

/-- Settles O59. Either line's first two commands make a machine ready with one engine and one binding. -/
theorem decryptLineUndoesEncryptLine : Obligations.DecryptLineUndoesEncryptLine := by
  intro s u kind key data iv rounds hs hu h8 h32 hiv hlen
  have hpresent : kind ≠ .ecb → ∃ v, iv = some v ∧ v.length = 8 := fun hkind => by
    obtain ⟨v, hsome, hv, -⟩ := hiv hkind
    exact ⟨v, hsome, hv⟩
  have hcount : counterOverflows s.cfg.ctrOverflow (data.length / 8 + 1) (.ofKind kind (be64 (iv.getD []))) = false := by
    refine counterOverflows_eq_false fun iv' hctr => ?_
    cases kind <;> cases hctr
    obtain ⟨v, rfl, -, hrange⟩ := hiv nofun
    exact hrange rfl
  have haccepts := asmEngineInit_accepts key (rounds := rounds) (by omega)
  obtain ⟨t, hrun, hready⟩ := runExpansion_ready hs key h8 h32 hpresent false [⟨encode .modeEnc, [], [], data⟩]
  obtain ⟨t', htransact, hresponse⟩ := hready.transact_modeEnc hs (by omega) hcount
  rw [runExpansion_singleton, htransact] at hrun
  refine ⟨_, t', _, by rw [assemble, haccepts, Option.map_some], hrun, hresponse, fun strict => ?_⟩
  obtain ⟨q, hrun', hready'⟩ := runExpansion_ready (hu ▸ hs) key h8 h32 hpresent strict
    [⟨encode .modeDec, [], [], ciphertext s.cfg _ _ data⟩]
  rw [hu] at hready'
  obtain ⟨q', htransact', hresponse'⟩ := hready'.transact_modeDec hs hlen hcount
  rw [runExpansion_singleton, htransact'] at hrun'
  exact ⟨_, q', by rw [assemble, haccepts, Option.map_some], hrun', hresponse'⟩

end Sys2Proof.Machine

/-! PROOFS. What the host observes (10_state.md R45): a simulation between states that agree wherever a valid bit guards a
register, carried along any list of events. -/

namespace Sys2Proof.Machine

/-! ### The simulation -/

/-- Two outcomes that show the host one response and leave states it cannot tell apart, or stop for one reason. -/
inductive SameOutcome : Result → Result → Prop
  | next {t t' : State} (hresponse : t.response = t'.response) (h : SameToTheHost t t') : SameOutcome (.next t) (.next t')
  | fault (why : Fault) : SameOutcome (.fault why) (.fault why)
  | refused (why : Refusal) : SameOutcome (.refused why) (.refused why)

theorem SameToTheHost.respond {s u : State} (h : SameToTheHost s u) (st : Status) (out : Bytes) :
    SameToTheHost (s.respond st out) (u.respond st out) := ⟨h.cfg, h.engineValid, h.modeValid, h.engine, h.mode⟩

theorem SameToTheHost.accept {s u : State} (h : SameToTheHost s u) (q : Request) (rest : List Event) :
    SameToTheHost (s.accept q rest) (u.accept q rest) := ⟨h.cfg, h.engineValid, h.modeValid, h.engine, h.mode⟩

/-- A new engine is the same in both, since the tables are, and no mode is bound to it (R148). -/
theorem SameToTheHost.buildEngine {s u : State} (h : SameToTheHost s u) (kb : Bytes) (n : Nat) :
    SameToTheHost (s.withRegs (s.regs.buildEngine s.cfg.tables kb n))
      (u.withRegs (u.regs.buildEngine u.cfg.tables kb n)) where
  cfg := h.cfg
  engineValid := rfl
  modeValid := rfl
  engine _ := ⟨rfl, by simp [h.cfg]⟩
  mode hv := absurd hv Bool.false_ne_true

/-- A mode bound beside an engine keeps the engine, on which the states agree already (R235). -/
theorem SameToTheHost.bindMode {s u : State} (h : SameToTheHost s u) (hv : s.regs.engineValid = true) {r r' : Regs}
    (kind : Kind) (strict : Bool) (hvalid : r.engineValid = r'.engineValid)
    (hr : r.rounds = s.regs.rounds ∧ r.subkey = s.regs.subkey) (hr' : r'.rounds = u.regs.rounds ∧ r'.subkey = u.regs.subkey)
    (hiv : kind ≠ .ecb → r.iv = r'.iv) :
    SameToTheHost (s.withRegs (r.bindMode kind strict)) (u.withRegs (r'.bindMode kind strict)) where
  cfg := h.cfg
  engineValid := hvalid
  modeValid := rfl
  engine _ := by
    obtain ⟨hrounds, hsubkey⟩ := h.engine (.inl hv)
    exact ⟨hr.1.trans (hrounds.trans hr'.1.symm), hr.2.trans (hsubkey.trans hr'.2.symm)⟩
  mode _ := ⟨rfl, rfl, fun hkind => hiv fun hecb => hkind (hecb ▸ rfl)⟩

theorem sameOutcome_raise {s u : State} (h : SameToTheHost s u) (error : Status) :
    SameOutcome (raise error s) (raise error u) := .next rfl (h.respond error [])

theorem sameOutcome_returnOk {s u : State} (h : SameToTheHost s u) (out : Bytes) :
    SameOutcome (returnOk out s) (returnOk out u) := .next rfl (h.respond .ok out)

/-- One effect has one outcome on both states. -/
theorem Effect.on_sameOutcome {s u : State} (h : SameToTheHost s u) {e : Effect} (he : e.Allowed s) :
    SameOutcome (e.on s) (e.on u) := by
  cases e with
  | stop why => exact .fault why
  | fail error => exact sameOutcome_raise h error
  | answer out => exact sameOutcome_returnOk h out
  | build kb n => exact sameOutcome_returnOk (h.buildEngine kb n) []
  | bindEcb strict =>
    exact sameOutcome_returnOk
      (h.bindMode he .ecb strict h.engineValid ⟨rfl, rfl⟩ ⟨rfl, rfl⟩ fun hne => absurd rfl hne) []
  | bindChained kind iv strict =>
    exact sameOutcome_returnOk (h.bindMode (r := s.regs.setIv iv) (r' := u.regs.setIv iv) he kind strict h.engineValid
      ⟨rfl, rfl⟩ ⟨rfl, rfl⟩ fun _ => rfl) []

theorem exec_sameOutcome {s u : State} (h : SameToTheHost s u) {i : Instr} (hop : SameOperands i s u) :
    SameOutcome (exec i s) (exec i u) := by
  obtain ⟨e, hallowed, he⟩ := exec_hasEffect i s
  rw [he s (sameToTheHost_refl s) (sameOperands_refl i s), he u h hop]
  exact Effect.on_sameOutcome h hallowed

/-- The step of a request that the host puts to the machine. -/
theorem step_facing_request {s : State} (hs : shapeOk s.cfg.tables = true) (q : Request) :
    step (s.facing (.request q)) = runWord exec q.cmd (s.accept q []) :=
  step_request (s := s.facing (.request q)) hs (facing_pending _ s)

theorem step_facing_reset {s : State} {ev : Event} (hs : shapeOk s.cfg.tables = true) (he : ev.isReset = true) :
    step (s.facing ev) = .next (s.takeReset []) :=
  step_reset (s := s.facing ev) hs he (facing_pending ev s)

/-- One event has one outcome on both states. -/
theorem step_sameOutcome {s u : State} (h : SameToTheHost s u) (ev : Event) :
    SameOutcome (step (s.facing ev)) (step (u.facing ev)) := by
  cases hs : shapeOk s.cfg.tables with
  | false =>
    rw [step_malformed (s := s.facing ev) hs, step_malformed (s := u.facing ev) (h.cfg ▸ hs)]
    exact .refused .malformedTables
  | true =>
    have hu : shapeOk u.cfg.tables = true := h.cfg ▸ hs
    cases ev with
    | request q =>
      rw [step_facing_request hs, step_facing_request hu, runWord, runWord]
      cases decode q.cmd with
      | ok i => exact exec_sameOutcome (h.accept q []) (sameOperands_of_buffers i rfl rfl rfl)
      | error e => exact sameOutcome_raise (h.accept q []) .illegalCommand
    | reset | resetDuring q =>
      rw [step_facing_reset hs rfl, step_facing_reset hu rfl]
      exact .next rfl (sameToTheHost_of_regs h.cfg rfl)

/-- The host sees the same responses along every list of events. -/
theorem hostView_eq_of_same {s u : State} (h : SameToTheHost s u) (evs : List Event) : s.hostView evs = u.hostView evs := by
  induction evs generalizing s u with
  | nil => rfl
  | cons ev evs ih =>
    have hstep := step_sameOutcome h ev
    rw [State.hostView, State.hostView]
    generalize step (s.facing ev) = x at hstep
    generalize step (u.facing ev) = y at hstep
    cases hstep with
    | next hresponse hsame => simp only [hresponse, ih hsame]
    | fault why | refused why => rfl

/-! ### The views after a reset and of a new engine -/

theorem hostView_reset {s : State} {ev : Event} (evs : List Event) (hs : shapeOk s.cfg.tables = true)
    (hreset : ev.isReset = true) : s.hostView (ev :: evs) = none :: (State.resetWith s.cfg).hostView evs := by
  have hfresh : SameToTheHost (s.takeReset []) (State.resetWith s.cfg) := sameToTheHost_of_regs rfl rfl
  rw [hostView_next evs (step_facing_reset hs hreset), hostView_eq_of_same hfresh, takeReset_response]

/-- What a request shows the host, from what its instruction answers on the captured operands. -/
theorem hostView_request {s t : State} {q : Request} {i : Instr} (evs : List Event) (hs : shapeOk s.cfg.tables = true)
    (hi : decode q.cmd = .ok i) (hexec : exec i (s.accept q []) = .next t) :
    s.hostView (.request q :: evs) = t.response :: t.hostView evs := by
  refine hostView_next evs ?_
  rw [step_facing_request hs, runWord, hi]
  exact hexec

/-- A legal ENGINE_INIT shows the host an OK, and the engine stands in the machine left. -/
theorem hostView_engineInit {s : State} (key iv data : Bytes) {n : Nat} (evs : List Event)
    (hs : shapeOk s.cfg.tables = true) (h8 : 8 ≤ n) (h32 : n ≤ 32) :
    ∃ t : State, s.hostView (.request ⟨encode (.engineInit n), key, iv, data⟩ :: evs) =
        some ⟨0x00, []⟩ :: t.hostView evs ∧
      t.cfg = s.cfg ∧ t.regs = s.regs.buildEngine s.cfg.tables (normKey key) n :=
  ⟨_, hostView_request (i := .engineInit n) evs hs (decode_encode_engineInit (by omega)) (execEngineInit_ok _ h8 h32),
    rfl, rfl⟩

/-- A block command shows the host the cipher of its block, and leaves the engine. -/
theorem hostView_blockCommand {s : State} {q : Request} {i : Instr} {dir : Dir} {keys : List Subkey} (evs : List Event)
    (hs : shapeOk s.cfg.tables = true) (hi : decode q.cmd = .ok i) (hdir : ∀ s, exec i s = blockCommand dir s)
    (hv : s.regs.engineValid = true) (hk : s.regs.readEngine = .ok keys) (hlen : q.dataIn.length = 8) :
    ∃ t : State, s.hostView (.request q :: evs) =
        some ⟨0x00, bytes8 (cipher s.cfg dir keys (be64 q.dataIn))⟩ :: t.hostView evs ∧
      t.cfg = s.cfg ∧ t.regs = s.regs :=
  ⟨_, hostView_request evs hs hi ((hdir _).trans (blockCommand_ok (s := s.accept q []) dir hv hlen hk)), rfl, rfl⟩

/-- A new engine answers with the cipher under the schedule of the key and the count it was built with. -/
theorem hostView_engine {s : State} (key iv : Bytes) {data : Bytes} {n : Nat} (hs : shapeOk s.cfg.tables = true)
    (h8 : 8 ≤ n) (h32 : n ≤ 32) (hlen : data.length = 8) :
    s.hostView [.request ⟨encode (.engineInit n), key, iv, data⟩, .request ⟨0x00000002, key, iv, data⟩,
        .request ⟨0x00000003, key, iv, data⟩] =
      [some ⟨0x00, []⟩, some ⟨0x00, bytes8 (cipher s.cfg .enc (ks s.cfg.tables (normKey key) n) (be64 data))⟩,
        some ⟨0x00, bytes8 (cipher s.cfg .dec (ks s.cfg.tables (normKey key) n) (be64 data))⟩] := by
  obtain ⟨t, hinit, hcfg, hregs⟩ := hostView_engineInit key iv data
    [.request ⟨0x00000002, key, iv, data⟩, .request ⟨0x00000003, key, iv, data⟩] hs h8 h32
  have hv : t.regs.engineValid = true := by rw [hregs, buildEngine_engineValid]
  have hk : t.regs.readEngine = .ok (ks s.cfg.tables (normKey key) n) := by
    rw [hregs, readEngine_buildEngine s.cfg.tables s.regs (normKey_length key) h8 h32]
  obtain ⟨t', henc, hcfg', hregs'⟩ := hostView_blockCommand (i := .blockEnc) (dir := .enc)
    (q := ⟨0x00000002, key, iv, data⟩) [.request ⟨0x00000003, key, iv, data⟩] (hcfg ▸ hs)
    (encodedInstructionDecodesToItself .blockEnc rfl) (fun _ => rfl) hv hk
    hlen
  obtain ⟨t'', hdec, -, -⟩ := hostView_blockCommand (s := t') (i := .blockDec) (dir := .dec)
    (q := ⟨0x00000003, key, iv, data⟩) [] (hcfg' ▸ hcfg ▸ hs)
    (encodedInstructionDecodesToItself .blockDec rfl) (fun _ => rfl) (hregs' ▸ hv) (hregs' ▸ hk) hlen
  rw [hinit, henc, hdec, hcfg', hcfg, hostView_nil]

/-- Settles O60. -/
theorem hostSeesOnlyResponses : Obligations.HostSeesOnlyResponses :=
  ⟨fun _ _ evs h => hostView_eq_of_same h evs, fun _ _ evs hs hreset => hostView_reset evs hs hreset,
   fun _ key iv _ _ hs h8 h32 hlen => hostView_engine key iv hs h8 h32 hlen⟩

end Sys2Proof.Machine
